-- ==== Sys2Proof/Word.lean ====
section
/-! DEFINITION. The machine's words: bytes, 16-bit words, the 12-bit address operand and register numbers
(spec 00_scope.md R7, R9, R10; 10_state.md R21; 30_encoding.md R81). -/

namespace Sys2Proof

/-- An 8-bit value: a general register, a timer, a memory byte (10_state.md R20). -/
abbrev Byte := BitVec 8

/-- A 16-bit value: pc, I, a stack entry, an instruction word (10_state.md R20, 30_encoding.md R80). -/
abbrev Word := BitVec 16

/-- The absolute address operand nnn, 12 bits (30_encoding.md R81). -/
abbrev Addr := BitVec 12

/-- A general register number 0..15; every value names a register (10_state.md R21). -/
abbrev Reg := Fin 16

/-- VF, register 15 (10_state.md R23). -/
abbrev vf : Reg := 15

end Sys2Proof
end

