-- ==== Sys2Proof/Decode.lean ====
section
/-! DEFINITION. The opcode table, the decoder (total on any bytes) and the encoder (spec 30_encoding.md R80 to R89;
20_memory.md R57 for the byte order). -/

namespace Sys2Proof

/-- One row of the opcode table of R85: a word matches when `(w AND mask) = pattern`. -/
structure OpcodeRow where
  mnemonic : String
  mask : Word
  pattern : Word
  deriving DecidableEq, Repr

/-- Rows 1 to 9 of R85. -/
def opcodeRowsA : List OpcodeRow := [
  ⟨"CLS", 0xFFFF, 0x00E0⟩, ⟨"RET", 0xFFFF, 0x00EE⟩, ⟨"JP_nnn", 0xF000, 0x1000⟩,
  ⟨"CALL_nnn", 0xF000, 0x2000⟩, ⟨"SE_Vx__kk", 0xF000, 0x3000⟩, ⟨"SNE_Vx__kk", 0xF000, 0x4000⟩,
  ⟨"SE_Vx__Vy", 0xF00F, 0x5000⟩, ⟨"LD_Vx__kk", 0xF000, 0x6000⟩, ⟨"ADD_Vx__kk", 0xF000, 0x7000⟩]

/-- Rows 10 to 19 of R85. -/
def opcodeRowsB : List OpcodeRow := [
  ⟨"LD_Vx__Vy", 0xF00F, 0x8000⟩, ⟨"OR_Vx__Vy", 0xF00F, 0x8001⟩, ⟨"AND_Vx__Vy", 0xF00F, 0x8002⟩,
  ⟨"XOR_Vx__Vy", 0xF00F, 0x8003⟩, ⟨"ADD_Vx__Vy", 0xF00F, 0x8004⟩, ⟨"SUB_Vx__Vy", 0xF00F, 0x8005⟩,
  ⟨"SHR_Vx", 0xF00F, 0x8006⟩, ⟨"SUBN_Vx__Vy", 0xF00F, 0x8007⟩, ⟨"SHL_Vx", 0xF00F, 0x800E⟩,
  ⟨"SNE_Vx__Vy", 0xF00F, 0x9000⟩]

/-- Rows 20 to 34 of R85. -/
def opcodeRowsC : List OpcodeRow := [
  ⟨"LD_I__nnn", 0xF000, 0xA000⟩, ⟨"JP_V0__nnn", 0xF000, 0xB000⟩, ⟨"RND_Vx__kk", 0xF000, 0xC000⟩,
  ⟨"DRW_Vx__Vy__n", 0xF000, 0xD000⟩, ⟨"SKP_Vx", 0xF0FF, 0xE09E⟩, ⟨"SKNP_Vx", 0xF0FF, 0xE0A1⟩,
  ⟨"LD_Vx__DT", 0xF0FF, 0xF007⟩, ⟨"LD_Vx__K", 0xF0FF, 0xF00A⟩, ⟨"LD_DT__Vx", 0xF0FF, 0xF015⟩,
  ⟨"LD_ST__Vx", 0xF0FF, 0xF018⟩, ⟨"ADD_I__Vx", 0xF0FF, 0xF01E⟩, ⟨"LD_F__Vx", 0xF0FF, 0xF029⟩,
  ⟨"LD_B__Vx", 0xF0FF, 0xF033⟩, ⟨"LD__I___Vx", 0xF0FF, 0xF055⟩, ⟨"LD_Vx___I", 0xF0FF, 0xF065⟩]

/-- The 34 instruction rows of R85. -/
def opcodeRows : List OpcodeRow := opcodeRowsA ++ opcodeRowsB ++ opcodeRowsC

/-- Whether a word matches a row (R85). -/
def OpcodeRow.matchesWord (r : OpcodeRow) (w : Word) : Bool := w &&& r.mask == r.pattern

/-- A word that matches no instruction row (40_engine.md R115). -/
def isUnknownWord (w : Word) : Bool := opcodeRows.all fun r => !r.matchesWord w

/-- The mnemonic of an instruction's row, as spec/opcode_table.json spells it. -/
def Instr.mnemonic : Instr → String
  | .cls => "CLS" | .ret => "RET" | .jp _ => "JP_nnn" | .call _ => "CALL_nnn"
  | .seImm _ _ => "SE_Vx__kk" | .sneImm _ _ => "SNE_Vx__kk" | .seReg _ _ => "SE_Vx__Vy"
  | .ldImm _ _ => "LD_Vx__kk" | .addImm _ _ => "ADD_Vx__kk" | .ldReg _ _ => "LD_Vx__Vy"
  | .orReg _ _ => "OR_Vx__Vy" | .andReg _ _ => "AND_Vx__Vy" | .xorReg _ _ => "XOR_Vx__Vy"
  | .addReg _ _ => "ADD_Vx__Vy" | .sub _ _ => "SUB_Vx__Vy" | .shr _ _ => "SHR_Vx"
  | .subn _ _ => "SUBN_Vx__Vy" | .shl _ _ => "SHL_Vx" | .sneReg _ _ => "SNE_Vx__Vy"
  | .ldI _ => "LD_I__nnn" | .jpV0 _ => "JP_V0__nnn" | .rnd _ _ => "RND_Vx__kk"
  | .drw _ _ _ => "DRW_Vx__Vy__n" | .skp _ => "SKP_Vx" | .sknp _ => "SKNP_Vx"
  | .ldVxDt _ => "LD_Vx__DT" | .ldVxK _ => "LD_Vx__K" | .ldDt _ => "LD_DT__Vx"
  | .ldSt _ => "LD_ST__Vx" | .addI _ => "ADD_I__Vx" | .ldF _ => "LD_F__Vx" | .ldB _ => "LD_B__Vx"
  | .storeRegs _ => "LD__I___Vx" | .loadRegs _ => "LD_Vx___I" | .unknown _ => "UNKNOWN"

/-- The six overlapping fields of a word (R81, R82; 90_conflicts.md C3). -/
structure Fields where
  op : BitVec 4
  x : Reg
  y : Reg
  n : Fin 16
  kk : Byte
  nnn : Addr
  deriving DecidableEq, Repr

/-- A 4-bit field as a register number or row count (R84: no field is extended, scaled or shifted). -/
def nibble (w : Word) (lo : Nat) : Fin 16 := (w.extractLsb' lo 4).toFin

/-- Field extraction, as every step performs it (R82). -/
def fields (w : Word) : Fields where
  op := w.extractLsb' 12 4
  x := nibble w 8
  y := nibble w 4
  n := nibble w 0
  kk := w.extractLsb' 0 8
  nnn := w.extractLsb' 0 12

/-- Family 8: the low nibble selects the operation; 8..D and F are unknown (R85 rows 10 to 18, R87). -/
def decodeArith (f : Fields) (w : Word) : Instr :=
  match f.n.val with
  | 0x0 => .ldReg f.x f.y
  | 0x1 => .orReg f.x f.y
  | 0x2 => .andReg f.x f.y
  | 0x3 => .xorReg f.x f.y
  | 0x4 => .addReg f.x f.y
  | 0x5 => .sub f.x f.y
  | 0x6 => .shr f.x f.y
  | 0x7 => .subn f.x f.y
  | 0xE => .shl f.x f.y
  | _ => .unknown w

/-- Family E: the low byte selects the key skip (R85 rows 24 and 25, R87). -/
def decodeKey (f : Fields) (w : Word) : Instr :=
  match f.kk.toNat with
  | 0x9E => .skp f.x
  | 0xA1 => .sknp f.x
  | _ => .unknown w

/-- Family F: the low byte selects the operation (R85 rows 26 to 34, R87). -/
def decodeMisc (f : Fields) (w : Word) : Instr :=
  match f.kk.toNat with
  | 0x07 => .ldVxDt f.x
  | 0x0A => .ldVxK f.x
  | 0x15 => .ldDt f.x
  | 0x18 => .ldSt f.x
  | 0x1E => .addI f.x
  | 0x29 => .ldF f.x
  | 0x33 => .ldB f.x
  | 0x55 => .storeRegs f.x
  | 0x65 => .loadRegs f.x
  | _ => .unknown w

/-- The decoder: the one row of R85 that a word matches, or UNKNOWN (40_engine.md R112). The last arm is op = 0xF,
the one value of a 4-bit field that the others leave. -/
def decodeWord (w : Word) : Instr :=
  let f := fields w
  match f.op.toNat with
  | 0x0 => if w = 0x00E0 then .cls else if w = 0x00EE then .ret else .unknown w
  | 0x1 => .jp f.nnn
  | 0x2 => .call f.nnn
  | 0x3 => .seImm f.x f.kk
  | 0x4 => .sneImm f.x f.kk
  | 0x5 => if f.n = 0 then .seReg f.x f.y else .unknown w
  | 0x6 => .ldImm f.x f.kk
  | 0x7 => .addImm f.x f.kk
  | 0x8 => decodeArith f w
  | 0x9 => if f.n = 0 then .sneReg f.x f.y else .unknown w
  | 0xA => .ldI f.nnn
  | 0xB => .jpV0 f.nnn
  | 0xC => .rnd f.x f.kk
  | 0xD => .drw f.x f.y f.n
  | 0xE => decodeKey f w
  | _ => decodeMisc f w

/-- Two bytes as a big-endian word: the byte at the lower address is bits 15..8 (20_memory.md R57). -/
def joinBytes (hi lo : Byte) : Word := hi ++ lo

/-- The byte of a word that lies at the lower address (20_memory.md R57). -/
def highByte (w : Word) : Byte := w.extractLsb' 8 8

/-- The byte of a word that lies at the higher address (20_memory.md R57). -/
def lowByte (w : Word) : Byte := w.extractLsb' 0 8

/-- Why bytes hold no instruction. -/
inductive DecodeError where
  /-- fewer than the 2 bytes that every instruction takes (R80) -/
  | truncated
  deriving DecidableEq, Repr

/-- The decoder on bytes: 2 bytes always make an instruction (R80, R88: no word is illegal). -/
def decodeBytes : List Byte → Except DecodeError (Instr × List Byte)
  | hi :: lo :: rest => .ok (decodeWord (joinBytes hi lo), rest)
  | _ => .error .truncated

/-- Format NNN: `op nnn` (R83, R86). -/
def encodeNNN (op : Nat) (nnn : Addr) : Word := BitVec.ofNat 16 (op * 0x1000 + nnn.toNat)

/-- Format XKK: `op x kk` (R83, R86); format XS is the same with a fixed low byte. -/
def encodeXKK (op : Nat) (x : Reg) (kk : Byte) : Word :=
  BitVec.ofNat 16 (op * 0x1000 + x.val * 0x100 + kk.toNat)

/-- Format XYN: `op x y n` (R83, R86); format XYS is the same with a fixed low nibble. -/
def encodeXYN (op : Nat) (x y n : Fin 16) : Word :=
  BitVec.ofNat 16 (op * 0x1000 + x.val * 0x100 + y.val * 0x10 + n.val)

/-- The encoder: the word of an instruction (R86). -/
def encode : Instr → Word
  | .cls => 0x00E0
  | .ret => 0x00EE
  | .jp nnn => encodeNNN 0x1 nnn
  | .call nnn => encodeNNN 0x2 nnn
  | .seImm x kk => encodeXKK 0x3 x kk
  | .sneImm x kk => encodeXKK 0x4 x kk
  | .seReg x y => encodeXYN 0x5 x y 0x0
  | .ldImm x kk => encodeXKK 0x6 x kk
  | .addImm x kk => encodeXKK 0x7 x kk
  | .ldReg x y => encodeXYN 0x8 x y 0x0
  | .orReg x y => encodeXYN 0x8 x y 0x1
  | .andReg x y => encodeXYN 0x8 x y 0x2
  | .xorReg x y => encodeXYN 0x8 x y 0x3
  | .addReg x y => encodeXYN 0x8 x y 0x4
  | .sub x y => encodeXYN 0x8 x y 0x5
  | .shr x y => encodeXYN 0x8 x y 0x6
  | .subn x y => encodeXYN 0x8 x y 0x7
  | .shl x y => encodeXYN 0x8 x y 0xE
  | .sneReg x y => encodeXYN 0x9 x y 0x0
  | .ldI nnn => encodeNNN 0xA nnn
  | .jpV0 nnn => encodeNNN 0xB nnn
  | .rnd x kk => encodeXKK 0xC x kk
  | .drw x y n => encodeXYN 0xD x y n
  | .skp x => encodeXKK 0xE x 0x9E
  | .sknp x => encodeXKK 0xE x 0xA1
  | .ldVxDt x => encodeXKK 0xF x 0x07
  | .ldVxK x => encodeXKK 0xF x 0x0A
  | .ldDt x => encodeXKK 0xF x 0x15
  | .ldSt x => encodeXKK 0xF x 0x18
  | .addI x => encodeXKK 0xF x 0x1E
  | .ldF x => encodeXKK 0xF x 0x29
  | .ldB x => encodeXKK 0xF x 0x33
  | .storeRegs x => encodeXKK 0xF x 0x55
  | .loadRegs x => encodeXKK 0xF x 0x65
  | .unknown w => w

/-- An instruction's bytes as memory holds them, the high byte first (20_memory.md R57). -/
def encodeBytes (i : Instr) : List Byte := [highByte (encode i), lowByte (encode i)]

/-- The host's view of the decoder: the instruction of the word whose bits are `w` (of `nbits` bits), laid out
big-endian in two bytes. -/
def decodeTableWord (nbits w : Nat) : Option Instr :=
  let word : Word := BitVec.ofNat 16 (w % 2 ^ nbits)
  match decodeBytes [highByte word, lowByte word] with
  | .ok (i, _) => some i
  | .error _ => none

end Sys2Proof
end

