-- ==== Sys2Proof/Config.lean ====
section
/-! DEFINITION. What is fixed for one Machine: the parameters of spec 00_scope.md R7, and the three values the
spec leaves open (R8), each a constant WITHOUT A BODY, so that no proof can know its value. -/

namespace Sys2Proof

/-- What the operand reads of 8xy5, 8xy6, 8xy7 and 8xyE see when an operand is VF, after the flag was written
(42_alu.md R147, 92_eei_decisions.md D14). -/
inductive VfAliasRead where
  /-- the operands are read after the flag write, so VF reads as the new flag -/
  | afterFlag
  /-- the operands were read once, before the flag write -/
  | latched
  deriving DecidableEq, Repr, Inhabited

namespace Config

/-- MEM_SIZE: addresses 0x000–0xFFF (R7). -/
abbrev memSize : Nat := 0x1000

/-- FONT_SIZE: the font table is 0x000–0x04F (R7). -/
abbrev fontSize : Nat := 80

/-- PROG_BASE: the reset pc, where LoadRom copies to, and the lowest address a store may reach (R7, 20_memory.md R54). -/
abbrev progBase : Nat := 0x200

/-- ROM_MAX: the longest image LoadRom accepts, 4096 − 0x200 bytes (R7). -/
abbrev romMax : Nat := 3584

/-- STACK_DEPTH (R7). -/
abbrev stackDepth : Nat := 16

/-- FB_W (R7). -/
abbrev fbWidth : Nat := 64

/-- FB_H (R7). -/
abbrev fbHeight : Nat := 32

/-- FB_W × FB_H = 2048 entries (R7). -/
abbrev fbSize : Nat := 2048

/-- SPRITE_W (R7). -/
abbrev spriteWidth : Nat := 8

/-- NUM_KEYS (R7). -/
abbrev numKeys : Nat := 16

/-- GLYPH_BYTES (R7). -/
abbrev glyphBytes : Nat := 5

/-- The parameter FONT: the contents of 0x000–0x04F (R8, D20). Free: the source gives no bytes. Log entry 1. -/
opaque font : Vector Byte 80

/-- The parameter VF_ALIAS_READ (R8, D14). Free: one of the two values, and no proof knows which. Log entry 2. -/
opaque vfAliasRead : VfAliasRead

/-- The random bytes: `rnd k` is the draw of the k-th execution of Cxkk (R8, 40_engine.md R120, D21). Free. Log entry 3. -/
opaque rnd : Nat → Byte

end Config
end Sys2Proof
end

