-- ==== Sys2Proof/Machine/State.lean ====
section
/-! DEFINITION. The machine's state as plain data (spec 10_state.md R20 to R38), its reset value, and the reasons a
step can stop. -/

namespace Sys2Proof.Machine

/-- The spec's fault codes other than NONE (60_exceptions.md R240). -/
inductive FaultCode where
  /-- code 1: pc > 0xFFE at a fetch; info is pc -/
  | fetchRange
  /-- code 2: a data address I + k > 0xFFF; info is the first such address -/
  | dataRange
  /-- code 3: a store address I + k < 0x200; info is the first such address -/
  | protectedWrite
  /-- code 4: 2nnn with sp = 16; info is sp -/
  | stackOverflow
  /-- code 5: 00EE with sp = 0; info is sp -/
  | stackUnderflow
  /-- code 6: Ex9E or ExA1 with Vx > 15; info is Vx -/
  | keyRange
  deriving DecidableEq, Repr

/-- What `fault` records when it is not NONE (10_state.md R36): the code, the info and the pc of the faulting step. -/
structure FaultRecord where
  code : FaultCode
  info : Nat
  pc : Word
  deriving DecidableEq, Repr

/-- One event of the diagnostic port: the address and the unknown word (60_exceptions.md R262). -/
structure DiagEvent where
  pc : Word
  word : Word
  deriving DecidableEq, Repr

/-- The bytes of the 4096-byte address space that differ from what construction put there, as (address, byte)
pairs with strictly rising addresses. -/
abbrev Memory := List Host.Cell

/-- The framebuffer: 2048 one-bit pixels, pixel (x, y) at index y·64 + x (10_state.md R29). -/
abbrev Framebuffer := Vector Bool Config.fbSize

/-- Every component of the machine (10_state.md R20), and two fields of the model's own, `diag` and `draws`. -/
structure State where
  /-- the 4096-byte memory (R32) -/
  mem : Memory
  /-- the general registers V0..VF (R21) -/
  V : Vector Byte 16
  /-- the index register (R25) -/
  I : Word
  /-- the program counter (R24) -/
  pc : Word
  /-- the return addresses (R26) -/
  stack : Vector Word Config.stackDepth
  /-- how many stack entries are in use, 0..16 (R27) -/
  sp : Fin 17
  /-- the delay timer (R28) -/
  dt : Byte
  /-- the sound timer (R28) -/
  st : Byte
  /-- the framebuffer (R29) -/
  fb : Framebuffer
  /-- the keypad flags, true while pressed (R30) -/
  key : Vector Bool Config.numKeys
  /-- the redraw-pending latch (R31) -/
  redraw : Bool
  /-- the fault status; none is NONE (R36) -/
  fault : Option FaultRecord
  /-- the model's own: the events of the diagnostic port so far, oldest first; no rule reads it (R262). Log entry 4 -/
  diag : List DiagEvent
  /-- the model's own: how many random draws were taken; `Config.rnd draws` is the next one (R8, R120). Log entry 3 -/
  draws : Nat
  deriving DecidableEq, Repr

/-- The state after construction: the table of R38. Memory lists nothing, so it reads as FONT below 0x050 and as
zero above. The spec leaves no value open; `diag` and `draws` start empty and at 0 by DESIGN CHOICE (log entries 3, 4). -/
def State.reset : State where
  mem := []
  V := Vector.replicate 16 0
  I := 0x0000
  pc := 0x0200
  stack := Vector.replicate Config.stackDepth 0
  sp := 0
  dt := 0x00
  st := 0x00
  fb := Vector.replicate Config.fbSize false
  key := Vector.replicate Config.numKeys false
  redraw := false
  fault := none
  diag := []
  draws := 0

/-- The reasons the machine has no next state. -/
inductive Fault where
  /-- Raised by `step` alone, when `fault` is not NONE: the model gives a faulted core no transition
  (40_engine.md R110, 60_exceptions.md R242). Safe: the hardware does nothing there either. Log entry 5 -/
  | halted (r : FaultRecord)
  deriving DecidableEq, Repr

/-- The reasons an instruction has no meaning. -/
inductive Refusal where
  /-- Raised only by an arm of `exec` whose instruction has no meaning yet; no arm does. Safe: nothing is claimed. -/
  | notModelled (mnemonic : String)
  deriving DecidableEq, Repr

/-- What an instruction's meaning or a step answers. -/
abbrev Outcome := Host.Outcome State Fault Refusal

end Sys2Proof.Machine
end

