-- ==== Sys2Proof/Machine/Ops.lean ====
section
/-! DEFINITION. The named operations over registers, memory, the stack, the timers and the keypad, taking a fault, and
the two halves of the step that surround an instruction: the fetch and the tick. -/

namespace Sys2Proof.Machine

/-! ### Memory (20_memory.md) -/

namespace Memory

/-- What an address that memory does not list reads as: what construction left there (10_state.md R38). Addresses
above 0xFFF are no part of memory; the value given for them here is never read. Log entry 8. -/
def unlisted (a : Nat) : Byte := if h : a < Config.fontSize then Config.font[a] else 0

/-- The byte at an address. -/
def read : Memory → Nat → Byte
  | [], a => unlisted a
  | (b, v) :: rest, a => if a = b then v else read rest a

/-- Take an address out of the list, so that it reads as `unlisted` says. -/
def erase (m : Memory) (a : Nat) : Memory := m.filter fun c => c.1 != a

/-- Put an address into the list, in rising order. -/
def insert : Memory → Nat → Byte → Memory
  | [], a, v => [(a, v)]
  | (b, w) :: rest, a, v => if a < b then (a, v) :: (b, w) :: rest else (b, w) :: insert rest a v

/-- Write one byte and keep the canonical form: a byte equal to what the unlisted address reads as is not listed. -/
def write (m : Memory) (a : Nat) (v : Byte) : Memory :=
  if v = unlisted a then erase m a else insert (erase m a) a v

/-- Write bytes at rising addresses from `a`. -/
def writeBytes : Memory → Nat → List Byte → Memory
  | m, _, [] => m
  | m, a, v :: vs => writeBytes (write m a v) (a + 1) vs

/-- The `n` bytes at rising addresses from `a`. -/
def readBytes (m : Memory) (a n : Nat) : List Byte := (List.range n).map fun k => read m (a + k)

/-- The canonical form: addresses strictly rising, all inside the address space of R50, and no entry equal to what
the unlisted address reads as. -/
def wf (m : Memory) : Bool :=
  decide (m.Pairwise fun c d => c.1 < d.1) &&
    m.all fun c => decide (c.1 < Config.memSize) && c.2 != unlisted c.1

/-- No address below 0x200 is listed: the font and 0x050–0x1FF are as construction left them (20_memory.md R51). -/
def lowClear (m : Memory) : Bool := m.all fun c => decide (Config.progBase ≤ c.1)

end Memory

/-- A fault to be raised: its code and its info (00_scope.md R13). -/
abbrev Raise := FaultCode × Nat

/-- The check of `MemRead(a, 1)` (20_memory.md R53). -/
def readCheck (a : Nat) : Option Raise :=
  if a > 0xFFF then some (.dataRange, a) else none

/-- The check of `MemWrite(a, 1, v)`: DATA_RANGE before PROTECTED_WRITE (20_memory.md R54, 60_exceptions.md R243). -/
def writeCheck (a : Nat) : Option Raise :=
  if a > 0xFFF then some (.dataRange, a)
  else if a < Config.progBase then some (.protectedWrite, a)
  else none

/-- An instruction's checks over the `n` addresses from `base`, ascending; the first that fails is reported
(20_memory.md R55). -/
def firstFailure (check : Nat → Option Raise) (base n : Nat) : Option Raise :=
  (List.range n).findSome? fun k => check (base + k)

/-! ### Faults (60_exceptions.md) -/

/-- Fault entry: the state before the step with `fault <- (code, info, pc0)`; nothing else is saved or changed, and
there is no handler and no return (R241, R244). Log entry 5. -/
def raise (f : Raise) (s : State) : State := { s with fault := some ⟨f.1, f.2, s.pc⟩ }

/-- The fault code as the host reads it, 0 for NONE (R240). -/
def FaultCode.number : FaultCode → Nat
  | .fetchRange => 1
  | .dataRange => 2
  | .protectedWrite => 3
  | .stackOverflow => 4
  | .stackUnderflow => 5
  | .keyRange => 6

/-- An instruction that checks before it writes: the fault of the failed check, or its effect (00_scope.md R13). -/
def guarded (failure : Option Raise) (s effect : State) : Outcome :=
  match failure with
  | some f => .next (raise f s)
  | none => .next effect

/-! ### Registers, pc and stack (10_state.md) -/

/-- Read V[i] (R21). -/
def State.v (s : State) (i : Reg) : Byte := s.V[i]

/-- Write V[i] (R21). -/
def State.setV (s : State) (i : Reg) (b : Byte) : State := { s with V := s.V.set i b }

/-- pc <- pc + k, the advance each handler makes itself (40_engine.md R114). Log entry 6. -/
def State.advance (s : State) (k : Word) : State := { s with pc := s.pc + k }

/-- A skip: pc + 4 when taken, else pc + 2 (41_skips.md R130). -/
def State.skipIf (s : State) (taken : Bool) : State := s.advance (if taken then 4 else 2)

/-- pc <- target (43_control.md R170). -/
def State.jump (s : State) (target : Word) : State := { s with pc := target }

/-- Push: write stack[sp], then increment sp; none at sp = 16 (R27). -/
def State.push (s : State) (w : Word) : Option State :=
  if h : s.sp.val < 16 then
    some { s with stack := s.stack.set s.sp.val w h, sp := ⟨s.sp.val + 1, by omega⟩ }
  else none

/-- Pop: decrement sp, then read stack[sp], which keeps its value; none at sp = 0 (R27, D22). -/
def State.pop (s : State) : Option (Word × State) :=
  if h : 0 < s.sp.val then
    some (s.stack[s.sp.val - 1]'(by have := s.sp.isLt; simp only [Config.stackDepth]; omega), { s with sp := ⟨s.sp.val - 1, by omega⟩ })
  else none

/-! ### Keypad (44_keypad.md) -/

/-- The keypad's check: a key number above 15 has no key (R181, R182, D6). -/
def keyCheck (k : Byte) : Option Raise :=
  if k.toNat > 15 then some (.keyRange, k.toNat) else none

/-- Whether key k is pressed; used only for k ≤ 15 (R180). -/
def State.keyPressed (s : State) (k : Nat) : Bool := s.key[k]?.getD false

/-- The scan of all 16 flags in ascending order: the first pressed key (R183). -/
def State.firstKey (s : State) : Option Nat := (List.range Config.numKeys).find? fun k => s.keyPressed k

/-! ### The step around an instruction (40_engine.md) -/

/-- A countdown that stops at 0 (10_state.md R28). -/
def countDown (t : Byte) : Byte := if t = 0 then t else t - 1

/-- The timer tick, step 4 (R117). -/
def State.tick (s : State) : State := { s with dt := countDown s.dt, st := countDown s.st }

/-- What follows an instruction: the tick if it completed, nothing if it raised a fault (R117, R118). -/
def completeStep : Outcome → Outcome
  | .next t => .next (if t.fault.isSome then t else t.tick)
  | .fault r => .fault r
  | .refused r => .refused r

/-- The fetch: the big-endian word at pc and pc + 1, none when pc > 0xFFE (20_memory.md R52, 40_engine.md R111). -/
def fetchWord (s : State) : Option Word :=
  if s.pc.toNat > 0xFFE then none
  else some (joinBytes (s.mem.read s.pc.toNat) (s.mem.read (s.pc.toNat + 1)))

/-- The check of the fetch, with pc as its info (20_memory.md R52). -/
def fetchRaise (s : State) : Raise := (.fetchRange, s.pc.toNat)

/-- An instruction's word stored big-endian where the next step fetches. Log entry 7. -/
def State.pokeWord (s : State) (w : Word) : State :=
  { s with mem := s.mem.writeBytes s.pc.toNat [highByte w, lowByte w] }

end Sys2Proof.Machine
end

