-- ==== Sys2Proof/Machine/Flags.lean ====
section
/-! DEFINITION. Every flag computation: the values written to VF (spec 10_state.md R23, 42_alu.md R148 to R152,
47_display.md R224). -/

namespace Sys2Proof.Machine

/-- VF as a register value: 1 or 0. -/
def flagByte (b : Bool) : Byte := if b then 1 else 0

/-- Carry of 8xy4: the unbounded sum exceeds 255 (R148). -/
def carry (a b : Byte) : Bool := decide (a.toNat + b.toNat > 255)

/-- Not-borrow of `a − b`: strict, so equal operands give false (R149, R151, U9). -/
def notBorrow (a b : Byte) : Bool := decide (a.toNat > b.toNat)

/-- The bit a right shift puts out, bit 0 (R150). -/
def shiftedOutRight (a : Byte) : Bool := a.getLsbD 0

/-- The bit a left shift puts out, bit 7 (R152). -/
def shiftedOutLeft (a : Byte) : Bool := a.getLsbD 7

end Sys2Proof.Machine
end

