-- ==== Sys2Proof/Machine/Operands.lean ====
section
/-! DEFINITION. Every operand form: zero-extended addresses, data addresses I + k, the operands of the flag-writing
instructions, and the decimal digits (spec 30_encoding.md R84, 42_alu.md R147, 45_index_memory.md R194, R195). -/

namespace Sys2Proof.Machine

/-- `zext_16(nnn)` (R84). -/
def addr16 (nnn : Addr) : Word := nnn.setWidth 16

/-- An 8-bit register value in a 16-bit sum (R176, R198). -/
def byte16 (b : Byte) : Word := b.setWidth 16

/-- The one data addressing mode: I + k, an unbounded sum (R194, 20_memory.md R50). -/
def State.dataAddr (s : State) (k : Nat) : Nat := s.I.toNat + k

/-- A flag-writing instruction with operands V[x] and V[y]: VF gets the flag of the operands, then V[x] gets the
result; what the result reads is the mode's (R147). -/
def State.flagThenResult (s : State) (mode : VfAliasRead) (x y : Reg)
    (flag : Byte → Byte → Bool) (result : Byte → Byte → Byte) : State :=
  let flagged := s.setV vf (flagByte (flag (s.v x) (s.v y)))
  match mode with
  | .afterFlag => flagged.setV x (result (flagged.v x) (flagged.v y))
  | .latched => flagged.setV x (result (s.v x) (s.v y))

/-- The digits of a byte: hundreds, tens, units (R195). -/
def bcdDigits (v : Byte) : List Byte :=
  [BitVec.ofNat 8 (v.toNat / 100), BitVec.ofNat 8 (v.toNat / 10 % 10), BitVec.ofNat 8 (v.toNat % 10)]

/-- Registers 0 to x, ascending (R196). -/
def State.regsThrough (s : State) (x : Reg) : List Byte := s.V.toList.take (x.val + 1)

/-- Registers 0 to x loaded from I + 0 to I + x; the others keep their values (R197). -/
def State.loadThrough (s : State) (x : Reg) : State :=
  { s with V := Vector.ofFn fun i : Fin 16 => if i ≤ x then s.mem.read (s.dataAddr i.val) else s.v i }

end Sys2Proof.Machine
end

