-- ==== Sys2Proof/Machine/Alu.lean ====
section
/-! DEFINITION. Register loads, arithmetic, logic, shifts and random (spec 42_alu.md). -/

namespace Sys2Proof.Machine

/-- 6xkk (R141). -/
def execLdImm (x : Reg) (kk : Byte) (s : State) : Outcome := .next ((s.setV x kk).advance 2)

/-- 7xkk: modulo 256, VF not written as a flag (R142). -/
def execAddImm (x : Reg) (kk : Byte) (s : State) : Outcome := .next ((s.setV x (s.v x + kk)).advance 2)

/-- 8xy0 (R143). -/
def execLdReg (x y : Reg) (s : State) : Outcome := .next ((s.setV x (s.v y)).advance 2)

/-- 8xy1 (R144). -/
def execOrReg (x y : Reg) (s : State) : Outcome := .next ((s.setV x (s.v x ||| s.v y)).advance 2)

/-- 8xy2 (R145). -/
def execAndReg (x y : Reg) (s : State) : Outcome := .next ((s.setV x (s.v x &&& s.v y)).advance 2)

/-- 8xy3 (R146). -/
def execXorReg (x y : Reg) (s : State) : Outcome := .next ((s.setV x (s.v x ^^^ s.v y)).advance 2)

/-- 8xy4: the sum is formed before the flag write, so the operands are the latched ones under either value of
VF_ALIAS_READ (R147, R148). -/
def execAddReg (x y : Reg) (s : State) : Outcome :=
  .next ((s.flagThenResult .latched x y carry (· + ·)).advance 2)

/-- 8xy5 under a value of VF_ALIAS_READ (R149). -/
def subUnder (mode : VfAliasRead) (x y : Reg) (s : State) : State :=
  (s.flagThenResult mode x y notBorrow (· - ·)).advance 2

/-- 8xy5 (R149). -/
def execSub (x y : Reg) (s : State) : Outcome := .next (subUnder Config.vfAliasRead x y s)

/-- 8xy6 under a value of VF_ALIAS_READ; only Vx is read (R150, D13). -/
def shrUnder (mode : VfAliasRead) (x : Reg) (s : State) : State :=
  (s.flagThenResult mode x x (fun a _ => shiftedOutRight a) (fun a _ => a >>> 1)).advance 2

/-- 8xy6; the y field is ignored (R150, D13). -/
def execShr (x _y : Reg) (s : State) : Outcome := .next (shrUnder Config.vfAliasRead x s)

/-- 8xy7 under a value of VF_ALIAS_READ (R151). -/
def subnUnder (mode : VfAliasRead) (x y : Reg) (s : State) : State :=
  (s.flagThenResult mode x y (fun a b => notBorrow b a) (fun a b => b - a)).advance 2

/-- 8xy7 (R151). -/
def execSubn (x y : Reg) (s : State) : Outcome := .next (subnUnder Config.vfAliasRead x y s)

/-- 8xyE under a value of VF_ALIAS_READ; only Vx is read (R152, D13). -/
def shlUnder (mode : VfAliasRead) (x : Reg) (s : State) : State :=
  (s.flagThenResult mode x x (fun a _ => shiftedOutLeft a) (fun a _ => a <<< 1)).advance 2

/-- 8xyE; the y field is ignored (R152, D13). -/
def execShl (x _y : Reg) (s : State) : Outcome := .next (shlUnder Config.vfAliasRead x s)

/-- Cxkk for one draw (R153). -/
def rndWith (draw : Byte) (x : Reg) (kk : Byte) (s : State) : State :=
  { (s.setV x (draw &&& kk)).advance 2 with draws := s.draws + 1 }

/-- Cxkk: the next free draw (R153, 40_engine.md R120). Log entry 3. -/
def execRnd (x : Reg) (kk : Byte) (s : State) : Outcome := .next (rndWith (Config.rnd s.draws) x kk s)

end Sys2Proof.Machine
end

