-- ==== Sys2Proof/Machine/Control.lean ====
section
/-! DEFINITION. Jumps, calls and returns (spec 43_control.md). -/

namespace Sys2Proof.Machine

/-- 1nnn (R173). -/
def execJp (nnn : Addr) (s : State) : Outcome := .next (s.jump (addr16 nnn))

/-- 2nnn: pushes the address of the CALL itself (R171). -/
def execCall (nnn : Addr) (s : State) : Outcome :=
  match s.push s.pc with
  | some t => .next (t.jump (addr16 nnn))
  | none => .next (raise (.stackOverflow, s.sp.val) s)

/-- 00EE: resumes after the CALL whose address it pops (R172). -/
def execRet (s : State) : Outcome :=
  match s.pop with
  | some (target, t) => .next ((t.jump target).advance 2)
  | none => .next (raise (.stackUnderflow, s.sp.val) s)

/-- Bnnn: always V0, no wrap to 12 bits (R176). -/
def execJpV0 (nnn : Addr) (s : State) : Outcome := .next (s.jump (addr16 nnn + byte16 (s.v 0)))

end Sys2Proof.Machine
end

