-- ==== Sys2Proof/Machine/Display.lean ====
section
/-! DEFINITION. The display and sprite engine (spec 47_display.md). -/

namespace Sys2Proof.Machine

/-- The index y·64 + x of a pixel, both coordinates wrapped to the screen (10_state.md R29, R222). -/
def pixelIndex (px py : Nat) : Fin Config.fbSize :=
  ⟨py % Config.fbHeight * Config.fbWidth + px % Config.fbWidth, by
    simp only [Config.fbSize, Config.fbWidth, Config.fbHeight]; omega⟩

/-- A framebuffer and whether a set sprite bit hit a set pixel so far. -/
abbrev Canvas := Framebuffer × Bool

/-- Column c of a row: a set bit 7 − c inverts its pixel and collides if the pixel was 1 (R222, R224). -/
def drawPixel (ox py : Nat) (b : Byte) (cv : Canvas) (c : Nat) : Canvas :=
  if b.getLsbD (7 - c) then
    let k := pixelIndex (ox + c) py
    (cv.1.set k (!cv.1[k]), cv.2 || cv.1[k])
  else cv

/-- One sprite row, columns 0 to 7 (R222, DrawRow). -/
def drawRow (ox py : Nat) (cv : Canvas) (b : Byte) : Canvas :=
  (List.range Config.spriteWidth).foldl (drawPixel ox py b) cv

/-- The rows of a sprite, downwards from row oy (R223). -/
def drawRows (ox : Nat) : Nat → List Byte → Canvas → Canvas
  | _, [], cv => cv
  | oy, b :: bs, cv => drawRows ox (oy + 1) bs (drawRow ox oy cv b)

/-- 00E0; redraw is set even on a blank screen (R221, D19). -/
def execCls (s : State) : Outcome :=
  .next (({ s with fb := Vector.replicate Config.fbSize false, redraw := true } : State).advance 2)

/-- The effect of Dxyn once its sprite rows are known to be in memory (R223). The origin is read before VF is
written; VF is 0 unless a row hit (R224); redraw is always set (R225). -/
def State.draw (s : State) (x y : Reg) (n : Nat) : State :=
  let ox := (s.v x).toNat % Config.fbWidth
  let oy := (s.v y).toNat % Config.fbHeight
  let cv := drawRows ox oy (s.mem.readBytes (s.dataAddr 0) n) (s.fb, false)
  { (s.setV vf (flagByte cv.2)).advance 2 with fb := cv.1, redraw := true }

/-- Dxyn (R223). -/
def execDrw (x y : Reg) (n : Fin 16) (s : State) : Outcome :=
  guarded (firstFailure readCheck (s.dataAddr 0) n.val) s (s.draw x y n.val)

end Sys2Proof.Machine
end

