-- ==== Sys2Proof/Machine/IndexMemory.lean ====
section
/-! DEFINITION. The index register and memory transfers (spec 45_index_memory.md). -/

namespace Sys2Proof.Machine

/-- Annn (R191). -/
def execLdI (nnn : Addr) (s : State) : Outcome := .next (({ s with I := addr16 nnn } : State).advance 2)

/-- Fx1E: modulo 65536, VF not written (R198). -/
def execAddI (x : Reg) (s : State) : Outcome := .next (({ s with I := s.I + byte16 (s.v x) } : State).advance 2)

/-- Fx29: 5 × Vx with no mask (R192). -/
def execLdF (x : Reg) (s : State) : Outcome :=
  .next (({ s with I := BitVec.ofNat 16 (Config.glyphBytes * (s.v x).toNat) } : State).advance 2)

/-- Fx33 (R195). -/
def execLdB (x : Reg) (s : State) : Outcome :=
  guarded (firstFailure writeCheck (s.dataAddr 0) 3) s
    (({ s with mem := s.mem.writeBytes (s.dataAddr 0) (bcdDigits (s.v x)) } : State).advance 2)

/-- Fx55; I is unchanged (R196). -/
def execStoreRegs (x : Reg) (s : State) : Outcome :=
  guarded (firstFailure writeCheck (s.dataAddr 0) (x.val + 1)) s
    (({ s with mem := s.mem.writeBytes (s.dataAddr 0) (s.regsThrough x) } : State).advance 2)

/-- Fx65; I is unchanged (R197). -/
def execLoadRegs (x : Reg) (s : State) : Outcome :=
  guarded (firstFailure readCheck (s.dataAddr 0) (x.val + 1)) s ((s.loadThrough x).advance 2)

end Sys2Proof.Machine
end

