-- ==== Sys2Proof/Machine/Keypad.lean ====
section
/-! DEFINITION. The keypad instructions (spec 44_keypad.md). -/

namespace Sys2Proof.Machine

/-- Ex9E (R181). -/
def execSkp (x : Reg) (s : State) : Outcome :=
  guarded (keyCheck (s.v x)) s (s.skipIf (s.keyPressed (s.v x).toNat))

/-- ExA1 (R182). -/
def execSknp (x : Reg) (s : State) : Outcome :=
  guarded (keyCheck (s.v x)) s (s.skipIf !(s.keyPressed (s.v x).toNat))

/-- Fx0A: the lowest pressed key, or the same state again when none is pressed (R183, R184). -/
def execLdVxK (x : Reg) (s : State) : Outcome :=
  match s.firstKey with
  | some k => .next ((s.setV x (BitVec.ofNat 8 k)).advance 2)
  | none => .next s

end Sys2Proof.Machine
end

