-- ==== Sys2Proof/Machine/Skips.lean ====
section
/-! DEFINITION. The conditional skips (spec 41_skips.md). -/

namespace Sys2Proof.Machine

/-- 3xkk (R131). -/
def execSeImm (x : Reg) (kk : Byte) (s : State) : Outcome := .next (s.skipIf (s.v x == kk))

/-- 4xkk (R132). -/
def execSneImm (x : Reg) (kk : Byte) (s : State) : Outcome := .next (s.skipIf (s.v x != kk))

/-- 5xy0 (R133). -/
def execSeReg (x y : Reg) (s : State) : Outcome := .next (s.skipIf (s.v x == s.v y))

/-- 9xy0 (R134). -/
def execSneReg (x y : Reg) (s : State) : Outcome := .next (s.skipIf (s.v x != s.v y))

end Sys2Proof.Machine
end

