-- ==== Sys2Proof/Machine/Timers.lean ====
section
/-! DEFINITION. The timer instructions (spec 46_timers.md). The tick is the step's (40_engine.md R117). -/

namespace Sys2Proof.Machine

/-- Fx07: the value before this step's tick (R211). -/
def execLdVxDt (x : Reg) (s : State) : Outcome := .next ((s.setV x s.dt).advance 2)

/-- Fx15 (R212). -/
def execLdDt (x : Reg) (s : State) : Outcome := .next (({ s with dt := s.v x } : State).advance 2)

/-- Fx18 (R213). -/
def execLdSt (x : Reg) (s : State) : Outcome := .next (({ s with st := s.v x } : State).advance 2)

end Sys2Proof.Machine
end

