-- ==== Sys2Proof/Machine/Unknown.lean ====
section
/-! DEFINITION. The UNKNOWN path (spec 40_engine.md R116). -/

namespace Sys2Proof.Machine

/-- Any word that matches no instruction row: one diagnostic event and pc + 2, nothing else, never a fault
(R116, 60_exceptions.md R262). -/
def execUnknown (w : Word) (s : State) : Outcome :=
  .next (({ s with diag := s.diag ++ [⟨s.pc, w⟩] } : State).advance 2)

end Sys2Proof.Machine
end

