-- ==== Sys2Proof/Machine/Step.lean ====
section
/-! DEFINITION. The step (spec 40_engine.md R119), and the host's way to put an instruction where it is fetched. -/

namespace Sys2Proof.Machine

/-- One step: nothing on a faulted core (R110); the fetch or its fault (R111); the handler (R112 to R116); the tick
(R117). The word is fixed before the handler runs. -/
def step (s : State) : Host.Outcome State Fault Refusal :=
  match s.fault with
  | some r => .fault (.halted r)
  | none =>
    match fetchWord s with
    | none => .next (raise (fetchRaise s) s)
    | some w => completeStep (exec (decodeWord w) s)

/-- The word whose bits are `w` (of `nbits` bits) stored at pc and pc + 1, where the next step fetches it. It stands
for the host's load of a program (60_exceptions.md R250); nothing else changes. Log entry 7. -/
def State.withFetchWord (s : State) (nbits w : Nat) : State :=
  s.pokeWord (BitVec.ofNat 16 (w % 2 ^ nbits))

end Sys2Proof.Machine
end

