-- ==== Sys2Proof/Machine/HostOps.lean ====
section
/-! DEFINITION. The host interface: each operation is one indivisible transaction between steps
(spec 60_exceptions.md R248 to R257, R263; 20_memory.md R61). Log entries 7 and 10. -/

namespace Sys2Proof.Machine

/-- What LoadRom returns (R248, R250). -/
inductive RomStatus where
  | ok
  | oversizeRom
  deriving DecidableEq, Repr

/-- LoadRom: copies the bytes to 0x200 on, or fails and changes nothing (R250, R251). -/
def State.loadRom (s : State) (bytes : List Byte) : RomStatus × State :=
  if bytes.length > Config.romMax then (.oversizeRom, s)
  else (.ok, { s with mem := s.mem.writeBytes Config.progBase bytes })

/-- SetKey: any index outside 0..15 is ignored (R252). -/
def State.setKey (s : State) (index : Int) (pressed : Bool) : State :=
  if h : 0 ≤ index ∧ index ≤ 15 then
    { s with key := s.key.set index.toNat pressed (by simp only [Config.numKeys]; omega) }
  else s

/-- TakeRedraw: read and clear (R255). -/
def State.takeRedraw (s : State) : Bool × State := (s.redraw, { s with redraw := false })

/-- The fault status as the host reads it: the code's number, 0 for NONE, and the record (R240, R257, D30). -/
def State.faultNumber (s : State) : Nat :=
  match s.fault with
  | none => 0
  | some r => r.code.number

/-- Step() as the host calls it: no argument, no result; nothing happens on a faulted core (R110, R119, R257). -/
def State.stepOp (s : State) : State :=
  match step s with
  | .next t => t
  | .fault _ => s
  | .refused _ => s

/-- The operations the host may call (R263). -/
inductive HostOp where
  | loadRom (bytes : List Byte)
  | setKey (index : Int) (pressed : Bool)
  | readFramebuffer
  | takeRedraw
  | readSoundTimer
  | readFault
  | step
  deriving DecidableEq, Repr

/-- What an operation returns to the host. -/
inductive Reply where
  | nothing
  | rom (r : RomStatus)
  | framebuffer (fb : Framebuffer)
  | redraw (b : Bool)
  | soundTimer (v : Byte)
  | fault (code : Nat) (r : Option FaultRecord)
  deriving DecidableEq, Repr

/-- One host operation on the machine. ReadFramebuffer (R254), ReadSoundTimer (R256) and the read of `fault` (R257)
change nothing. -/
def transact (op : HostOp) (s : State) : Reply × State :=
  match op with
  | .loadRom bytes => (.rom (s.loadRom bytes).1, (s.loadRom bytes).2)
  | .setKey index pressed => (.nothing, s.setKey index pressed)
  | .readFramebuffer => (.framebuffer s.fb, s)
  | .takeRedraw => (.redraw s.takeRedraw.1, s.takeRedraw.2)
  | .readSoundTimer => (.soundTimer s.st, s)
  | .readFault => (.fault s.faultNumber s.fault, s)
  | .step => (.nothing, s.stepOp)

/-- A run of the machine under a host: whole operations in one total order (20_memory.md R61). -/
def runHost : List HostOp → State → List Reply × State
  | [], s => ([], s)
  | op :: ops, s =>
    let r := transact op s
    let rest := runHost ops r.2
    (r.1 :: rest.1, rest.2)

end Sys2Proof.Machine
end

