-- ==== Sys2Proof/WellFormed.lean ====
section
/-! DEFINITION. Which instruction terms are instructions of the machine. Every operand's type is exactly its field's
range (30_encoding.md R81), so the one check left is that an UNKNOWN term carries a word that matches no
instruction row (40_engine.md R115). -/

namespace Sys2Proof

/-- The check. All terms but `unknown` meet it by their operands' types. -/
def Instr.wf : Instr → Bool
  | .cls | .ret | .jp _ | .call _ | .seImm _ _ | .sneImm _ _ | .seReg _ _ | .ldImm _ _ | .addImm _ _
  | .ldReg _ _ | .orReg _ _ | .andReg _ _ | .xorReg _ _ | .addReg _ _ | .sub _ _ | .shr _ _ | .subn _ _
  | .shl _ _ | .sneReg _ _ | .ldI _ | .jpV0 _ | .rnd _ _ | .drw _ _ _ | .skp _ | .sknp _ | .ldVxDt _
  | .ldVxK _ | .ldDt _ | .ldSt _ | .addI _ | .ldF _ | .ldB _ | .storeRegs _ | .loadRegs _ => true
  | .unknown w => isUnknownWord w

end Sys2Proof
end

