-- ==== Sys2Proof/Safety.lean ====
section
/-! DEFINITION. What counts as a safe run, and the invariant of reachable states, in the terms the statements use. -/

namespace Sys2Proof.Machine

/-- A state no fault has ended: a faulted state is never a successful end of a run (spec 60_exceptions.md R242). -/
def State.safe (s : State) : Prop := s.fault = none

/-- Every stack entry is an address from which a CALL could be fetched (10_state.md R26, 43_control.md R170). -/
def State.stackBounded (s : State) : Prop := ∀ k : Fin 16, s.stack[k].toNat ≤ 0xFFE

/-- The invariant of the machine: memory is in its canonical form, nothing below 0x200 was ever written
(20_memory.md R51), pc is at most 0x10FE and no stack entry is above 0xFFE (43_control.md R170). -/
structure State.Inv (s : State) : Prop where
  memWf : s.mem.wf = true
  lowClear : s.mem.lowClear = true
  pcBound : s.pc.toNat ≤ 0x10FE
  stackBound : s.stackBounded

/-- The states some host can bring the machine to from construction (70_reset_and_hazards.md R282). -/
inductive Reachable : State → Prop where
  | reset : Reachable State.reset
  | transact (op : HostOp) {s : State} (h : Reachable s) : Reachable (Machine.transact op s).2

end Sys2Proof.Machine
end

