-- ==== Sys2Proof/Certificates/Slice0/Obligations.lean ====
section
/-! DEFINITION. The statements for the provers. Each says in the state's own fields what the spec's rule says; where a
next state is written as `{ s with … }`, every field not named is unchanged, so the equation is its own frame. -/

open Sys2Proof Sys2Proof.Machine

/-! ### Reset and the encoding -/

/-- 10_state.md R38: the value of every component after construction. FONT is the free parameter. -/
def Obligations.ResetHoldsConstructionValues : Prop :=
  (∀ a : Fin 80, State.reset.mem.read a.val = Config.font[a]) ∧
  (∀ a : Nat, 0x050 ≤ a → a ≤ 0xFFF → State.reset.mem.read a = 0x00) ∧
  (∀ i : Reg, State.reset.V[i] = 0x00) ∧
  State.reset.I = 0x0000 ∧ State.reset.pc = 0x0200 ∧
  (∀ k : Fin 16, State.reset.stack[k] = 0x0000) ∧ State.reset.sp = 0 ∧
  State.reset.dt = 0x00 ∧ State.reset.st = 0x00 ∧
  (∀ k : Fin Config.fbSize, State.reset.fb[k] = false) ∧
  (∀ k : Fin 16, State.reset.key[k] = false) ∧
  State.reset.redraw = false ∧ State.reset.fault = none

/-- 30_encoding.md R82: each field is exactly its bits of the word. -/
def Obligations.FieldsAreTheBitsOfTheWord : Prop :=
  ∀ w : Word,
    (∀ b < 4, (fields w).op.getLsbD b = w.getLsbD (12 + b)) ∧
    (∀ b < 4, (fields w).x.val.testBit b = w.getLsbD (8 + b)) ∧
    (∀ b < 4, (fields w).y.val.testBit b = w.getLsbD (4 + b)) ∧
    (∀ b < 4, (fields w).n.val.testBit b = w.getLsbD b) ∧
    (∀ b < 8, (fields w).kk.getLsbD b = w.getLsbD b) ∧
    (∀ b < 12, (fields w).nnn.getLsbD b = w.getLsbD b)

/-- 30_encoding.md R85, 40_engine.md R115: the decoder gives the instruction of the one row that matches the word;
the rows are pairwise disjoint; a word is unknown exactly when no row matches. -/
def Obligations.DecoderSelectsTheMatchingRow : Prop :=
  (∀ w : Word, ∀ r ∈ opcodeRows, w &&& r.mask = r.pattern → (decodeWord w).mnemonic = r.mnemonic) ∧
  (∀ w : Word, ∀ r ∈ opcodeRows, ∀ q ∈ opcodeRows,
    w &&& r.mask = r.pattern → w &&& q.mask = q.pattern → r = q) ∧
  (∀ w : Word, decodeWord w = .unknown w ↔ ∀ r ∈ opcodeRows, w &&& r.mask ≠ r.pattern)

/-- 30_encoding.md R87: the unknown words, family by family, and the path they take. That the path's event is
appended to the list `diag` is the model's choice (log entry 4). -/
def Obligations.UnknownWordsAreTheListedOnes : Prop :=
  ∀ w : Word,
    let op := w.toNat / 0x1000
    let n := w.toNat % 0x10
    let kk := w.toNat % 0x100
    ((∃ u, decodeWord w = .unknown u) ↔
      (op = 0x0 ∧ w ≠ 0x00E0 ∧ w ≠ 0x00EE) ∨
      (op = 0x5 ∧ n ≠ 0) ∨
      (op = 0x8 ∧ n ∈ [0x8, 0x9, 0xA, 0xB, 0xC, 0xD, 0xF]) ∨
      (op = 0x9 ∧ n ≠ 0) ∨
      (op = 0xE ∧ kk ∉ [0x9E, 0xA1]) ∨
      (op = 0xF ∧ kk ∉ [0x07, 0x0A, 0x15, 0x18, 0x1E, 0x29, 0x33, 0x55, 0x65])) ∧
    ∀ (u : Word) (s : State), decodeWord w = .unknown u →
      exec (decodeWord w) s = .next { s with diag := s.diag ++ [⟨s.pc, w⟩], pc := s.pc + 2 }

/-- 30_encoding.md R86: decoding the encoding of a well-formed instruction gives it back, with every operand at every
value, and leaves the bytes after it. -/
def Obligations.DecodeEncodeRoundTrip : Prop :=
  ∀ i : Instr, i.wf = true →
    decodeWord (encode i) = i ∧ ∀ rest : List Byte, decodeBytes (encodeBytes i ++ rest) = .ok (i, rest)

/-- 30_encoding.md R80, R88: every word is the encoding of exactly the well-formed instruction it decodes to. -/
def Obligations.EveryWordEncodesBack : Prop :=
  ∀ w : Word, (decodeWord w).wf = true ∧ encode (decodeWord w) = w

/-- Words written out from the bit strings of 30_encoding.md R86. -/
def Obligations.SampleWordsDecode : Prop :=
  decodeWord 0b0000000011100000 = .cls ∧ decodeWord 0b0010010000000000 = .call 0x400 ∧
  decodeWord 0b0011001100000101 = .seImm 3 0x05 ∧ decodeWord 0b1000000100100100 = .addReg 1 2 ∧
  decodeWord 0b1011001100000000 = .jpV0 0x300 ∧ decodeWord 0b1101000000010001 = .drw 0 1 1 ∧
  decodeWord 0b1110010110011110 = .skp 5 ∧ decodeWord 0b1111001100001010 = .ldVxK 3 ∧
  decodeWord 0b1111001101010101 = .storeRegs 3 ∧ decodeWord 0b0101000100100001 = .unknown 0x5121

/-! ### The step -/

/-- 40_engine.md R117 with R111 to R114: a step runs the instruction whose two bytes lie at pc and pc + 1; if it raises
no fault the step then decrements each nonzero timer, and else it does nothing more. -/
def Obligations.StepRunsTheDecodedInstructionThenTicks : Prop :=
  ∀ (s : State) (i : Instr), s.fault = none → s.pc.toNat ≤ 0xFFE →
    decodeBytes [s.mem.read s.pc.toNat, s.mem.read (s.pc.toNat + 1)] = .ok (i, []) →
    ∃ t, exec i s = .next t ∧
      (t.fault = none → step s = .next { t with
        dt := if t.dt = 0 then 0 else t.dt - 1, st := if t.st = 0 then 0 else t.st - 1 }) ∧
      (t.fault ≠ none → step s = .next t)

/-- 20_memory.md R52: the fetch forms the big-endian word, or raises FETCH_RANGE(pc) when pc > 0xFFE. -/
def Obligations.FetchIsBigEndianAndBounded : Prop :=
  ∀ s : State, s.fault = none →
    (s.pc.toNat ≤ 0xFFE →
      fetchWord s = some (s.mem.read s.pc.toNat ++ s.mem.read (s.pc.toNat + 1))) ∧
    (0xFFE < s.pc.toNat → step s = .next { s with fault := some ⟨.fetchRange, s.pc.toNat, s.pc⟩ })

/-- 40_engine.md R110: a step begins only when fault = NONE; a faulted core has no transition and the host's Step
changes nothing. -/
def Obligations.FaultedCoreTakesNoStep : Prop :=
  ∀ s : State,
    (∀ r, s.fault = some r → step s = .fault (.halted r) ∧ s.stepOp = s) ∧
    (s.fault = none → ∃ t, step s = .next t ∧ s.stepOp = t)

/-- 60_exceptions.md R246, R247 and R119: every handler answers a next state in every state. -/
def Obligations.EveryInstructionAnswersANextState : Prop :=
  ∀ (i : Instr) (s : State), ∃ t, exec i s = .next t

/-- 60_exceptions.md R241: a step that raises a fault changes nothing but `fault`, which records that step's pc. -/
def Obligations.FaultEntryIsPrecise : Prop :=
  ∀ (s t : State) (r : FaultRecord), step s = .next t → t.fault = some r →
    t = { s with fault := some ⟨r.code, r.info, s.pc⟩ }

/-- 60_exceptions.md R240: which step raises which code with which info, and the codes' numbers. The first address above
0xFFF of a range from I is the greater of I and 0x1000. -/
def Obligations.FaultsAreRaisedExactlyWhenListed : Prop :=
  (FaultCode.fetchRange.number = 1 ∧ FaultCode.dataRange.number = 2 ∧ FaultCode.protectedWrite.number = 3 ∧
    FaultCode.stackOverflow.number = 4 ∧ FaultCode.stackUnderflow.number = 5 ∧ FaultCode.keyRange.number = 6) ∧
  ∀ (s t : State) (c : FaultCode) (v : Nat), step s = .next t →
    (t.fault = some ⟨c, v, s.pc⟩ ↔
      (0xFFE < s.pc.toNat ∧ c = .fetchRange ∧ v = s.pc.toNat) ∨
      (s.pc.toNat ≤ 0xFFE ∧
        match decodeWord (s.mem.read s.pc.toNat ++ s.mem.read (s.pc.toNat + 1)) with
        | .drw _ _ n => n.val ≠ 0 ∧ s.I.toNat + n.val > 0x1000 ∧ c = .dataRange ∧ v = max s.I.toNat 0x1000
        | .loadRegs x => s.I.toNat + x.val > 0xFFF ∧ c = .dataRange ∧ v = max s.I.toNat 0x1000
        | .storeRegs x =>
          (s.I.toNat + x.val > 0xFFF ∧ c = .dataRange ∧ v = max s.I.toNat 0x1000) ∨
          (s.I.toNat < 0x200 ∧ c = .protectedWrite ∧ v = s.I.toNat)
        | .ldB _ =>
          (s.I.toNat + 2 > 0xFFF ∧ c = .dataRange ∧ v = max s.I.toNat 0x1000) ∨
          (s.I.toNat < 0x200 ∧ c = .protectedWrite ∧ v = s.I.toNat)
        | .call _ => s.sp.val = 16 ∧ c = .stackOverflow ∧ v = 16
        | .ret => s.sp.val = 0 ∧ c = .stackUnderflow ∧ v = 0
        | .skp x => (s.V[x]).toNat > 15 ∧ c = .keyRange ∧ v = (s.V[x]).toNat
        | .sknp x => (s.V[x]).toNat > 15 ∧ c = .keyRange ∧ v = (s.V[x]).toNat
        | _ => False))

/-- 46_timers.md R214: a timer set in a step is ticked in that step, and a timer that is not set counts down by one per
completed step and stops at 0. -/
def Obligations.TimersCountDownOncePerStep : Prop :=
  (∀ (s : State) (w : Word) (x : Reg), s.fault = none → fetchWord s = some w → decodeWord w = .ldDt x →
    step s = .next { s with
      pc := s.pc + 2, dt := BitVec.ofNat 8 ((s.V[x]).toNat - 1), st := BitVec.ofNat 8 (s.st.toNat - 1) }) ∧
  (∀ (s : State) (w : Word) (x : Reg), s.fault = none → fetchWord s = some w → decodeWord w = .ldSt x →
    step s = .next { s with
      pc := s.pc + 2, dt := BitVec.ofNat 8 (s.dt.toNat - 1), st := BitVec.ofNat 8 ((s.V[x]).toNat - 1) }) ∧
  (∀ (k : Nat) (σ : Nat → State),
    (∀ j < k, step (σ j) = .next (σ (j + 1)) ∧ (σ (j + 1)).fault = none ∧
      ∀ w x, fetchWord (σ j) = some w → decodeWord w ≠ .ldDt x) →
    (σ k).dt.toNat = (σ 0).dt.toNat - k) ∧
  (∀ (k : Nat) (σ : Nat → State),
    (∀ j < k, step (σ j) = .next (σ (j + 1)) ∧ (σ (j + 1)).fault = none ∧
      ∀ w x, fetchWord (σ j) = some w → decodeWord w ≠ .ldSt x) →
    (σ k).st.toNat = (σ 0).st.toNat - k)

/-- 44_keypad.md R184: with no key pressed, Fx0A runs again at every step, for any number of steps; only the timers
move. -/
def Obligations.KeyWaitRunsForeverWhileNoKeyIsPressed : Prop :=
  ∀ (k : Nat) (s : State) (w : Word) (x : Reg), s.fault = none → fetchWord s = some w → decodeWord w = .ldVxK x →
    (∀ j : Fin 16, s.key[j] = false) →
    Host.Core.run core k s = .next { s with
      dt := BitVec.ofNat 8 (s.dt.toNat - k), st := BitVec.ofNat 8 (s.st.toNat - k) }

/-- 70_reset_and_hazards.md R284: stepping without a program takes 1792 unknown steps and then raises
FETCH_RANGE(0x1000). That the steps' events are kept in the list `diag` is the model's choice (log entry 4). -/
def Obligations.SteppingWithoutARomEndsInFetchRange : Prop :=
  let events : List DiagEvent := (List.range 1792).map fun k => ⟨BitVec.ofNat 16 (0x200 + 2 * k), 0x0000⟩
  Host.Core.run core 1792 State.reset = .next { State.reset with pc := 0x1000, diag := events } ∧
  Host.Core.run core 1793 State.reset =
    .next { State.reset with pc := 0x1000, diag := events, fault := some ⟨.fetchRange, 0x1000, 0x1000⟩ }

/-! ### Skips, loads, arithmetic -/

/-- 41_skips.md R131 to R134: the four register skips, all operands. -/
def Obligations.RegisterSkipsAdvanceByFourOrTwo : Prop :=
  ∀ (x y : Reg) (kk : Byte) (s : State),
    exec (.seImm x kk) s = .next { s with pc := if s.V[x] = kk then s.pc + 4 else s.pc + 2 } ∧
    exec (.sneImm x kk) s = .next { s with pc := if s.V[x] ≠ kk then s.pc + 4 else s.pc + 2 } ∧
    exec (.seReg x y) s = .next { s with pc := if s.V[x] = s.V[y] then s.pc + 4 else s.pc + 2 } ∧
    exec (.sneReg x y) s = .next { s with pc := if s.V[x] ≠ s.V[y] then s.pc + 4 else s.pc + 2 }

/-- 42_alu.md R141 to R146: loads, the immediate add and the bitwise operations write Vx alone, with no flag effect. -/
def Obligations.LoadsAndLogicWriteOneRegister : Prop :=
  ∀ (x y : Reg) (kk : Byte) (s : State),
    exec (.ldImm x kk) s = .next { s with V := s.V.set x kk, pc := s.pc + 2 } ∧
    exec (.addImm x kk) s = .next { s with
      V := s.V.set x (BitVec.ofNat 8 (((s.V[x]).toNat + kk.toNat) % 256)), pc := s.pc + 2 } ∧
    exec (.ldReg x y) s = .next { s with V := s.V.set x s.V[y], pc := s.pc + 2 } ∧
    exec (.orReg x y) s = .next { s with V := s.V.set x (s.V[x] ||| s.V[y]), pc := s.pc + 2 } ∧
    exec (.andReg x y) s = .next { s with V := s.V.set x (s.V[x] &&& s.V[y]), pc := s.pc + 2 } ∧
    exec (.xorReg x y) s = .next { s with V := s.V.set x (s.V[x] ^^^ s.V[y]), pc := s.pc + 2 }

/-- 42_alu.md R148: the carry goes to VF first, then the sum modulo 256 to Vx, from the operands before either. -/
def Obligations.AddWithCarry : Prop :=
  ∀ (x y : Reg) (s : State),
    let sum := (s.V[x]).toNat + (s.V[y]).toNat
    exec (.addReg x y) s = .next { s with
      V := (s.V.set 15 (if sum > 255 then 1 else 0)).set x (BitVec.ofNat 8 (sum % 256)), pc := s.pc + 2 }

/-- 42_alu.md R149, R151: the subtractions under both values of VF_ALIAS_READ, for every x and y. `seen r` is what the
result reads from register r. -/
def Obligations.SubtractionsSetStrictNotBorrow : Prop :=
  ∀ (x y : Reg) (s : State),
    (let flag : Byte := if (s.V[x]).toNat > (s.V[y]).toNat then 1 else 0
     let seen := fun r : Reg => if Config.vfAliasRead = .afterFlag ∧ r = 15 then flag else s.V[r]
     exec (.sub x y) s = .next { s with
       V := (s.V.set 15 flag).set x (BitVec.ofNat 8 ((256 + (seen x).toNat - (seen y).toNat) % 256)),
       pc := s.pc + 2 }) ∧
    (let flag : Byte := if (s.V[y]).toNat > (s.V[x]).toNat then 1 else 0
     let seen := fun r : Reg => if Config.vfAliasRead = .afterFlag ∧ r = 15 then flag else s.V[r]
     exec (.subn x y) s = .next { s with
       V := (s.V.set 15 flag).set x (BitVec.ofNat 8 ((256 + (seen y).toNat - (seen x).toNat) % 256)),
       pc := s.pc + 2 })

/-- 42_alu.md R150, R152: the shifts of Vx in place under both values of VF_ALIAS_READ; the y field has no effect. -/
def Obligations.ShiftsPutTheLostBitInVf : Prop :=
  ∀ (x y : Reg) (s : State),
    (let flag : Byte := if (s.V[x]).getLsbD 0 then 1 else 0
     let seen := if Config.vfAliasRead = .afterFlag ∧ x = 15 then flag else s.V[x]
     exec (.shr x y) s = .next { s with
       V := (s.V.set 15 flag).set x (BitVec.ofNat 8 (seen.toNat / 2)), pc := s.pc + 2 }) ∧
    (let flag : Byte := if (s.V[x]).getLsbD 7 then 1 else 0
     let seen := if Config.vfAliasRead = .afterFlag ∧ x = 15 then flag else s.V[x]
     exec (.shl x y) s = .next { s with
       V := (s.V.set 15 flag).set x (BitVec.ofNat 8 (seen.toNat * 2 % 256)), pc := s.pc + 2 })

/-- 42_alu.md R153: Cxkk writes its draw masked by kk, for every draw; the draw it takes is the free value
`Config.rnd s.draws`. That draw's form and the counter `draws` are the model's choice (log entry 3). -/
def Obligations.RandomWritesTheMaskedDraw : Prop :=
  ∀ (x : Reg) (kk : Byte) (s : State),
    exec (.rnd x kk) s = .next (rndWith (Config.rnd s.draws) x kk s) ∧
    ∀ draw : Byte, rndWith draw x kk s =
      { s with V := s.V.set x (draw &&& kk), pc := s.pc + 2, draws := s.draws + 1 }

/-! ### Jumps, calls, returns -/

/-- 43_control.md R173, R176: the jumps; the indexed jump adds V0 with no wrap to 12 bits. -/
def Obligations.JumpsSetPcToTheirTarget : Prop :=
  ∀ (nnn : Addr) (s : State),
    exec (.jp nnn) s = .next { s with pc := BitVec.ofNat 16 nnn.toNat } ∧
    exec (.jpV0 nnn) s = .next { s with pc := BitVec.ofNat 16 (nnn.toNat + (s.V[0]).toNat) } ∧
    nnn.toNat + (s.V[0]).toNat ≤ 0x10FE

/-- 43_control.md R171: CALL pushes its own address, or raises STACK_OVERFLOW(16). -/
def Obligations.CallPushesItsOwnAddress : Prop :=
  ∀ (nnn : Addr) (s : State),
    (s.sp.val = 16 → exec (.call nnn) s = .next { s with fault := some ⟨.stackOverflow, 16, s.pc⟩ }) ∧
    (∀ h : s.sp.val < 16, exec (.call nnn) s = .next { s with
      stack := s.stack.set s.sp.val s.pc h, sp := ⟨s.sp.val + 1, Nat.succ_lt_succ h⟩,
      pc := BitVec.ofNat 16 nnn.toNat })

/-- 43_control.md R172: RET pops and resumes after the CALL, or raises STACK_UNDERFLOW(0); the entry stays. -/
def Obligations.ReturnResumesAfterTheCall : Prop :=
  ∀ s : State,
    (s.sp.val = 0 → exec .ret s = .next { s with fault := some ⟨.stackUnderflow, 0, s.pc⟩ }) ∧
    (∀ k : Fin 16, s.sp = k.succ →
      exec .ret s = .next { s with sp := k.castSucc, pc := s.stack[k] + 2 })

/-- 43_control.md R171, R172, R174: the RET that meets the stack a CALL left resumes after that CALL. -/
def Obligations.ReturnUndoesCall : Prop :=
  ∀ (nnn : Addr) (s t u : State), s.sp.val < 16 → exec (.call nnn) s = .next t →
    u.stack = t.stack → u.sp = t.sp →
    exec .ret u = .next { u with sp := s.sp, pc := s.pc + 2 }

/-! ### Keypad, timers, index register -/

/-- 44_keypad.md R181, R182: the key skips, or KEY_RANGE(Vx) when Vx > 15. -/
def Obligations.KeySkipsTestTheKeyNumberedByVx : Prop :=
  ∀ (x : Reg) (s : State),
    ((s.V[x]).toNat > 15 →
      exec (.skp x) s = .next { s with fault := some ⟨.keyRange, (s.V[x]).toNat, s.pc⟩ } ∧
      exec (.sknp x) s = .next { s with fault := some ⟨.keyRange, (s.V[x]).toNat, s.pc⟩ }) ∧
    (∀ k : Fin 16, (s.V[x]).toNat = k.val →
      exec (.skp x) s = .next { s with pc := if s.key[k] = true then s.pc + 4 else s.pc + 2 } ∧
      exec (.sknp x) s = .next { s with pc := if s.key[k] = false then s.pc + 4 else s.pc + 2 })

/-- 44_keypad.md R183: the key wait stores the lowest pressed key and advances, or changes nothing. -/
def Obligations.KeyWaitTakesTheLowestPressedKey : Prop :=
  ∀ (x : Reg) (s : State),
    (∀ k : Fin 16, s.key[k] = true → (∀ j : Fin 16, j < k → s.key[j] = false) →
      exec (.ldVxK x) s = .next { s with V := s.V.set x (BitVec.ofNat 8 k.val), pc := s.pc + 2 }) ∧
    ((∀ k : Fin 16, s.key[k] = false) → exec (.ldVxK x) s = .next s)

/-- 46_timers.md R211, R212, R213: the timer transfers; the read is the value before the step's tick, the writes are
ticked by their own step. -/
def Obligations.TimerTransfersComeBeforeTheTick : Prop :=
  ∀ (x : Reg) (s : State),
    exec (.ldVxDt x) s = .next { s with V := s.V.set x s.dt, pc := s.pc + 2 } ∧
    exec (.ldDt x) s = .next { s with dt := s.V[x], pc := s.pc + 2 } ∧
    exec (.ldSt x) s = .next { s with st := s.V[x], pc := s.pc + 2 } ∧
    ∀ w : Word, s.fault = none → fetchWord s = some w →
      (decodeWord w = .ldVxDt x → step s = .next { s with
        V := s.V.set x s.dt, pc := s.pc + 2,
        dt := if s.dt = 0 then 0 else s.dt - 1, st := if s.st = 0 then 0 else s.st - 1 }) ∧
      (decodeWord w = .ldDt x → step s = .next { s with
        pc := s.pc + 2, dt := if s.V[x] = 0 then 0 else s.V[x] - 1, st := if s.st = 0 then 0 else s.st - 1 }) ∧
      (decodeWord w = .ldSt x → step s = .next { s with
        pc := s.pc + 2, dt := if s.dt = 0 then 0 else s.dt - 1, st := if s.V[x] = 0 then 0 else s.V[x] - 1 })

/-- 45_index_memory.md R191, R192, R198: the three writers of I; none writes VF. -/
def Obligations.IndexRegisterWrites : Prop :=
  ∀ (nnn : Addr) (x : Reg) (s : State),
    exec (.ldI nnn) s = .next { s with I := BitVec.ofNat 16 nnn.toNat, pc := s.pc + 2 } ∧
    exec (.ldF x) s = .next { s with I := BitVec.ofNat 16 (5 * (s.V[x]).toNat), pc := s.pc + 2 } ∧
    exec (.addI x) s = .next { s with
      I := BitVec.ofNat 16 ((s.I.toNat + (s.V[x]).toNat) % 65536), pc := s.pc + 2 }

/-! ### Memory transfers -/

/-- 45_index_memory.md R195: the three digits at I, I+1, I+2, every other byte as before, or the fault of the first
address that fails. -/
def Obligations.BcdStoresThreeDigits : Prop :=
  ∀ (x : Reg) (s : State),
    (0x200 ≤ s.I.toNat → s.I.toNat + 2 ≤ 0xFFF → ∃ t, exec (.ldB x) s = .next t ∧
      t = { s with mem := t.mem, pc := s.pc + 2 } ∧
      t.mem.read s.I.toNat = BitVec.ofNat 8 ((s.V[x]).toNat / 100) ∧
      t.mem.read (s.I.toNat + 1) = BitVec.ofNat 8 ((s.V[x]).toNat / 10 % 10) ∧
      t.mem.read (s.I.toNat + 2) = BitVec.ofNat 8 ((s.V[x]).toNat % 10) ∧
      ∀ a, a < s.I.toNat ∨ s.I.toNat + 2 < a → t.mem.read a = s.mem.read a) ∧
    (s.I.toNat < 0x200 → exec (.ldB x) s = .next { s with fault := some ⟨.protectedWrite, s.I.toNat, s.pc⟩ }) ∧
    (s.I.toNat + 2 > 0xFFF →
      exec (.ldB x) s = .next { s with fault := some ⟨.dataRange, max s.I.toNat 0x1000, s.pc⟩ })

/-- 45_index_memory.md R196: registers 0 to x at I to I+x, every other byte as before, I unchanged, or the fault of the
first address that fails. -/
def Obligations.BlockStoreWritesRegistersThroughX : Prop :=
  ∀ (x : Reg) (s : State),
    (0x200 ≤ s.I.toNat → s.I.toNat + x.val ≤ 0xFFF → ∃ t, exec (.storeRegs x) s = .next t ∧
      t = { s with mem := t.mem, pc := s.pc + 2 } ∧
      (∀ i : Reg, i ≤ x → t.mem.read (s.I.toNat + i.val) = s.V[i]) ∧
      ∀ a, a < s.I.toNat ∨ s.I.toNat + x.val < a → t.mem.read a = s.mem.read a) ∧
    (s.I.toNat < 0x200 →
      exec (.storeRegs x) s = .next { s with fault := some ⟨.protectedWrite, s.I.toNat, s.pc⟩ }) ∧
    (s.I.toNat + x.val > 0xFFF →
      exec (.storeRegs x) s = .next { s with fault := some ⟨.dataRange, max s.I.toNat 0x1000, s.pc⟩ })

/-- 45_index_memory.md R197: registers 0 to x from I to I+x, the others and I unchanged, or DATA_RANGE of the first
address above 0xFFF. -/
def Obligations.BlockLoadReadsRegistersThroughX : Prop :=
  ∀ (x : Reg) (s : State),
    (s.I.toNat + x.val ≤ 0xFFF → ∃ t, exec (.loadRegs x) s = .next t ∧
      t = { s with V := t.V, pc := s.pc + 2 } ∧
      ∀ i : Reg, t.V[i] = if i ≤ x then s.mem.read (s.I.toNat + i.val) else s.V[i]) ∧
    (s.I.toNat + x.val > 0xFFF →
      exec (.loadRegs x) s = .next { s with fault := some ⟨.dataRange, max s.I.toNat 0x1000, s.pc⟩ })

/-- 45_index_memory.md R196, R197 and 95_test_vectors.md L1-10: a block load from where a block store put the registers
gives them back, whatever the registers held in between. -/
def Obligations.BlockLoadRestoresABlockStore : Prop :=
  ∀ (x : Reg) (s t u : State), 0x200 ≤ s.I.toNat → s.I.toNat + x.val ≤ 0xFFF →
    exec (.storeRegs x) s = .next t → u.mem = t.mem → u.I = s.I →
    ∃ v, exec (.loadRegs x) u = .next v ∧ (∀ i : Reg, i ≤ x → v.V[i] = s.V[i]) ∧
      ∀ i : Reg, x < i → v.V[i] = u.V[i]

/-- 20_memory.md R65 with R58: after a block store, a digit store or a ROM load, every fetch from that memory reads the
stored bytes, and the bytes from before where it stored none; so also where only one byte of the word was stored.
`after a` is the byte a fetch then reads at `a`. -/
def Obligations.StoreIsSeenByTheNextFetch : Prop :=
  (∀ (x : Reg) (s : State), 0x200 ≤ s.I.toNat → s.I.toNat + x.val ≤ 0xFFF →
    let after := fun a : Nat =>
      if s.I.toNat ≤ a ∧ a ≤ s.I.toNat + x.val then s.V[(a - s.I.toNat) % 16] else s.mem.read a
    ∃ t, exec (.storeRegs x) s = .next t ∧ ∀ u : State, u.mem = t.mem → u.pc.toNat ≤ 0xFFE →
      fetchWord u = some (after u.pc.toNat ++ after (u.pc.toNat + 1))) ∧
  (∀ (x : Reg) (s : State), 0x200 ≤ s.I.toNat → s.I.toNat + 2 ≤ 0xFFF →
    let after := fun a : Nat =>
      if a = s.I.toNat then BitVec.ofNat 8 ((s.V[x]).toNat / 100)
      else if a = s.I.toNat + 1 then BitVec.ofNat 8 ((s.V[x]).toNat / 10 % 10)
      else if a = s.I.toNat + 2 then BitVec.ofNat 8 ((s.V[x]).toNat % 10)
      else s.mem.read a
    ∃ t, exec (.ldB x) s = .next t ∧ ∀ u : State, u.mem = t.mem → u.pc.toNat ≤ 0xFFE →
      fetchWord u = some (after u.pc.toNat ++ after (u.pc.toNat + 1))) ∧
  ∀ (bytes : List Byte) (s u : State), bytes.length ≤ 3584 →
    let after := fun a : Nat =>
      if h : 0x200 ≤ a ∧ a < 0x200 + bytes.length then bytes[a - 0x200]'(by omega) else s.mem.read a
    u.mem = (transact (.loadRom bytes) s).2.mem → u.pc.toNat ≤ 0xFFE →
      fetchWord u = some (after u.pc.toNat ++ after (u.pc.toNat + 1))

/-! ### Display -/

/-- 47_display.md R221: all pixels 0, redraw set, VF not written. -/
def Obligations.ClearScreenBlanksTheFramebuffer : Prop :=
  ∀ s : State, exec .cls s = .next { s with
    fb := Vector.replicate Config.fbSize false, redraw := true, pc := s.pc + 2 }

/-- 47_display.md R223 with R222, R224, R225: the draw inverts exactly the pixels of the sprite's set bits, wrapped on
both axes; VF is 1 exactly when one of them was 1; redraw is set; or DATA_RANGE of the first sprite address above 0xFFF.
`covers k` says that a set bit of the sprite falls on pixel k. -/
def Obligations.DrawXorsTheSpriteAndReportsCollision : Prop :=
  ∀ (x y : Reg) (n : Fin 16) (s : State),
    let ox := (s.V[x]).toNat % 64
    let oy := (s.V[y]).toNat % 32
    let covers := fun k : Fin Config.fbSize => ∃ r < n.val, ∃ c < 8,
      (s.mem.read (s.I.toNat + r)).getLsbD (7 - c) = true ∧ k.val = (oy + r) % 32 * 64 + (ox + c) % 64
    (n.val = 0 ∨ s.I.toNat + n.val ≤ 0x1000 → ∃ t, exec (.drw x y n) s = .next t ∧
      (∀ k, covers k → t.fb[k] = !s.fb[k]) ∧
      (∀ k, ¬ covers k → t.fb[k] = s.fb[k]) ∧
      ((∃ k, covers k ∧ s.fb[k] = true) →
        t = { s with V := s.V.set 15 1, fb := t.fb, redraw := true, pc := s.pc + 2 }) ∧
      ((∀ k, covers k → s.fb[k] = false) →
        t = { s with V := s.V.set 15 0, fb := t.fb, redraw := true, pc := s.pc + 2 })) ∧
    (n.val ≠ 0 → s.I.toNat + n.val > 0x1000 →
      exec (.drw x y n) s = .next { s with fault := some ⟨.dataRange, max s.I.toNat 0x1000, s.pc⟩ })

/-- 47_display.md R224: drawing the same sprite again at the same origin restores the framebuffer; the second draw
reports a collision exactly when the first one set a pixel. -/
def Obligations.DrawingTwiceErasesTheSprite : Prop :=
  ∀ (x y x' y' : Reg) (n : Fin 16) (s t u : State), n.val = 0 ∨ s.I.toNat + n.val ≤ 0x1000 →
    exec (.drw x y n) s = .next t →
    u.fb = t.fb → u.mem = s.mem → u.I = s.I →
    (u.V[x']).toNat % 64 = (s.V[x]).toNat % 64 → (u.V[y']).toNat % 32 = (s.V[y]).toNat % 32 →
    ∃ v, exec (.drw x' y' n) u = .next v ∧ v.fb = s.fb ∧
      (v.V[15] = 1 ↔ ∃ k : Fin Config.fbSize, s.fb[k] = false ∧ t.fb[k] = true)

/-- 40_engine.md R116: an unknown word emits one diagnostic event and advances, writes nothing else, and never faults;
the step then ticks. That the event is appended to the list `diag` is the model's choice (log entry 4). -/
def Obligations.UnknownWordEmitsOneDiagnosticAndAdvances : Prop :=
  ∀ (w : Word) (s : State),
    exec (.unknown w) s = .next { s with diag := s.diag ++ [⟨s.pc, w⟩], pc := s.pc + 2 } ∧
    (s.fault = none → fetchWord s = some w → decodeWord w = .unknown w →
      step s = .next { s with
        diag := s.diag ++ [⟨s.pc, w⟩], pc := s.pc + 2,
        dt := if s.dt = 0 then 0 else s.dt - 1, st := if s.st = 0 then 0 else s.st - 1 })

/-! ### Whole-machine rules -/

/-- 10_state.md R25 to R31, R36: which instructions may change each component other than V and pc,
and the model's own `diag` and `draws` (log entries 4 and 3). -/
def Obligations.EachComponentHasItsWriters : Prop :=
  ∀ (i : Instr) (s t : State), exec i s = .next t →
    (t.mem ≠ s.mem → ∃ x, i = .ldB x ∨ i = .storeRegs x) ∧
    (t.I ≠ s.I → (∃ nnn, i = .ldI nnn) ∨ ∃ x, i = .addI x ∨ i = .ldF x) ∧
    (t.stack ≠ s.stack → ∃ nnn, i = .call nnn) ∧
    (t.sp ≠ s.sp → i = .ret ∨ ∃ nnn, i = .call nnn) ∧
    (t.dt ≠ s.dt → ∃ x, i = .ldDt x) ∧
    (t.st ≠ s.st → ∃ x, i = .ldSt x) ∧
    (t.fb ≠ s.fb → i = .cls ∨ ∃ x y n, i = .drw x y n) ∧
    t.key = s.key ∧
    (t.redraw ≠ s.redraw → t.redraw = true ∧ (i = .cls ∨ ∃ x y n, i = .drw x y n)) ∧
    (t.diag ≠ s.diag → ∃ w, i = .unknown w) ∧
    (t.draws ≠ s.draws → ∃ x kk, i = .rnd x kk) ∧
    (t.fault ≠ s.fault → i = .ret ∨ (∃ nnn, i = .call nnn) ∨ (∃ x y n, i = .drw x y n) ∨
      ∃ x, i = .skp x ∨ i = .sknp x ∨ i = .ldB x ∨ i = .storeRegs x ∨ i = .loadRegs x)

/-- 10_state.md R21, R23: a general register changes only if the instruction names it as its destination, or it is VF
and the instruction writes the flag. -/
def Obligations.EachGeneralRegisterHasItsWriters : Prop :=
  ∀ (i : Instr) (s t : State) (r : Reg), exec i s = .next t → t.V[r] ≠ s.V[r] →
    (∃ kk, i = .ldImm r kk ∨ i = .addImm r kk ∨ i = .rnd r kk) ∨
    (∃ y, i = .ldReg r y ∨ i = .orReg r y ∨ i = .andReg r y ∨ i = .xorReg r y) ∨
    (∃ x y, (r = x ∨ r = 15) ∧
      (i = .addReg x y ∨ i = .sub x y ∨ i = .shr x y ∨ i = .subn x y ∨ i = .shl x y)) ∨
    (r = 15 ∧ ∃ x y n, i = .drw x y n) ∨
    i = .ldVxDt r ∨ i = .ldVxK r ∨ ∃ x, r ≤ x ∧ i = .loadRegs x

/-- 20_memory.md R51: no instruction and no host operation changes a byte below 0x200, from any state. -/
def Obligations.NoOperationChangesMemoryBelowProgramBase : Prop :=
  ∀ (op : HostOp) (s : State) (a : Nat), a < 0x200 → (transact op s).2.mem.read a = s.mem.read a

/-- 10_state.md R30, 44_keypad.md R180: an instruction other than Ex9E, ExA1 and Fx0A does not read the keypad: with
other flags it does the same, for the same draw of Cxkk. That both runs take the one draw `Config.rnd s.draws` is the
model's choice (log entry 3), and two machines need not. -/
def Obligations.KeypadIsReadByKeyInstructionsAlone : Prop :=
  ∀ (i : Instr) (s t : State) (keys : Vector Bool 16),
    (∀ x, i ≠ .skp x ∧ i ≠ .sknp x ∧ i ≠ .ldVxK x) → exec i s = .next t →
    exec i { s with key := keys } = .next { t with key := keys }

/-- 10_state.md R28, R31, 60_exceptions.md R262: no instruction reads st, redraw or the diagnostic events: with other
values there, every other component comes out the same, for the same draw of Cxkk. The list of events is the
model's choice (log entry 4); so is that both runs take the one draw `Config.rnd s.draws` (log entry 3), and two machines
need not. -/
def Obligations.OutputsAreNeverReadByAnInstruction : Prop :=
  ∀ (i : Instr) (s t : State) (v : Byte) (b : Bool) (events : List DiagEvent), exec i s = .next t →
    ∃ t', exec i { s with st := v, redraw := b, diag := events } = .next t' ∧
      { t' with st := t.st, redraw := t.redraw, diag := t.diag } = t

/-- The invariant of Safety.lean holds after construction. -/
def Obligations.ResetMeetsTheInvariant : Prop := State.reset.Inv

/-- Every step keeps the invariant: memory canonical, nothing below 0x200 written, pc at most 0x10FE (43_control.md
R170) and every stack entry at most 0xFFE. -/
def Obligations.StepKeepsTheInvariant : Prop :=
  ∀ s t : State, s.Inv → step s = .next t → t.Inv

/-- Every host operation keeps the invariant. -/
def Obligations.HostOperationsKeepTheInvariant : Prop :=
  ∀ (op : HostOp) (s : State), s.Inv → (transact op s).2.Inv

/-- 43_control.md R170, 20_memory.md R51: under any host, pc stays at most 0x10FE, memory below 0x200 reads as
construction left it, and a return never overflows 16 bits. -/
def Obligations.ReachableStatesAreBounded : Prop :=
  ∀ s : State, Reachable s →
    s.pc.toNat ≤ 0x10FE ∧ (∀ k : Fin 16, s.stack[k].toNat + 2 ≤ 0x1000) ∧
    ∀ a < 0x200, s.mem.read a = State.reset.mem.read a

/-! ### Host interface -/

/-- 60_exceptions.md R248, R250, R251: LoadRom copies the bytes to 0x200 on and changes nothing else, or fails and
changes nothing. -/
def Obligations.LoadRomCopiesOrFailsUnchanged : Prop :=
  ∀ (bytes : List Byte) (s : State),
    (bytes.length > 3584 → transact (.loadRom bytes) s = (.rom .oversizeRom, s)) ∧
    (bytes.length ≤ 3584 → ∃ t, transact (.loadRom bytes) s = (.rom .ok, t) ∧ t = { s with mem := t.mem } ∧
      (∀ k (h : k < bytes.length), t.mem.read (0x200 + k) = bytes[k]) ∧
      ∀ a, a < 0x200 ∨ 0x200 + bytes.length ≤ a → t.mem.read a = s.mem.read a)

/-- 60_exceptions.md R252: SetKey writes one flag; any index outside 0..15 has no effect. -/
def Obligations.SetKeyIgnoresIndicesOutsideTheKeypad : Prop :=
  ∀ (index : Int) (pressed : Bool) (s : State),
    (∀ k : Fin 16, index = k.val → transact (.setKey index pressed) s =
      (.nothing, { s with key := s.key.set k pressed })) ∧
    (index < 0 ∨ 15 < index → transact (.setKey index pressed) s = (.nothing, s))

/-- 60_exceptions.md R254 to R257, R263: the host's reads of the framebuffer, the sound timer and `fault` change nothing;
the read of redraw clears it and nothing else. The fault read answers the code's number of R240, 0 for NONE, and the
record; that the reply pairs the two is the model's choice (log entry 10). -/
def Obligations.HostReadsReturnTheirComponent : Prop :=
  ∀ s : State,
    transact .readFramebuffer s = (.framebuffer s.fb, s) ∧
    transact .readSoundTimer s = (.soundTimer s.st, s) ∧
    transact .takeRedraw s = (.redraw s.redraw, { s with redraw := false }) ∧
    (s.fault = none → transact .readFault s = (.fault 0 none, s)) ∧
    ∀ (code : FaultCode) (info : Nat) (pc : Word), s.fault = some ⟨code, info, pc⟩ →
      ∃ number, transact .readFault s = (.fault number (some ⟨code, info, pc⟩), s) ∧
        (code, number) ∈ [(FaultCode.fetchRange, 1), (.dataRange, 2), (.protectedWrite, 3),
          (.stackOverflow, 4), (.stackUnderflow, 5), (.keyRange, 6)]

/-- 10_state.md R36, 60_exceptions.md R242: once set, `fault` is never changed by any sequence of host operations,
steps included. -/
def Obligations.NoOperationClearsAFault : Prop :=
  ∀ (ops : List HostOp) (s : State) (r : FaultRecord), s.fault = some r → (runHost ops s).2.fault = some r
end

