-- ==== Sys2Proof/Laws/Decode.lean ====
section
/-! SUPPORT. The fields of a word as numbers, and the fields of each encoding format, so that proofs about the decoder
never open a bit string. -/

namespace Sys2Proof

/-! ### The fields of a word -/

theorem fields_op_toNat (w : Word) : (fields w).op.toNat = w.toNat / 0x1000 := by
  have := w.isLt
  simp only [fields, BitVec.extractLsb'_toNat, Nat.shiftRight_eq_div_pow]
  omega

theorem fields_x_val (w : Word) : (fields w).x.val = w.toNat / 0x100 % 16 := by
  simp [fields, nibble, Nat.shiftRight_eq_div_pow]

theorem fields_y_val (w : Word) : (fields w).y.val = w.toNat / 0x10 % 16 := by
  simp [fields, nibble, Nat.shiftRight_eq_div_pow]

theorem fields_n_val (w : Word) : (fields w).n.val = w.toNat % 16 := by
  simp [fields, nibble]

theorem fields_kk_toNat (w : Word) : (fields w).kk.toNat = w.toNat % 0x100 := by
  simp [fields, BitVec.extractLsb'_toNat]

theorem fields_nnn_toNat (w : Word) : (fields w).nnn.toNat = w.toNat % 0x1000 := by
  simp [fields, BitVec.extractLsb'_toNat]

/-! ### Format NNN -/

theorem encodeNNN_toNat {op : Nat} (h : op < 16) (nnn : Addr) :
    (encodeNNN op nnn).toNat = op * 0x1000 + nnn.toNat := by
  have := nnn.isLt
  simp only [encodeNNN, BitVec.toNat_ofNat]
  omega

theorem fields_encodeNNN {op : Nat} (h : op < 16) (nnn : Addr) :
    (fields (encodeNNN op nnn)).op.toNat = op ∧ (fields (encodeNNN op nnn)).nnn = nnn := by
  have := nnn.isLt
  refine ⟨?_, BitVec.eq_of_toNat_eq ?_⟩
  · rw [fields_op_toNat, encodeNNN_toNat h]; omega
  · rw [fields_nnn_toNat, encodeNNN_toNat h]; omega

/-! ### Formats XKK and XS -/

theorem encodeXKK_toNat {op : Nat} (h : op < 16) (x : Reg) (kk : Byte) :
    (encodeXKK op x kk).toNat = op * 0x1000 + x.val * 0x100 + kk.toNat := by
  have := kk.isLt
  have := x.isLt
  simp only [encodeXKK, BitVec.toNat_ofNat]
  omega

theorem fields_encodeXKK {op : Nat} (h : op < 16) (x : Reg) (kk : Byte) :
    (fields (encodeXKK op x kk)).op.toNat = op ∧ (fields (encodeXKK op x kk)).x = x ∧
      (fields (encodeXKK op x kk)).kk = kk := by
  have := kk.isLt
  have := x.isLt
  refine ⟨?_, Fin.ext ?_, BitVec.eq_of_toNat_eq ?_⟩
  · rw [fields_op_toNat, encodeXKK_toNat h]; omega
  · rw [fields_x_val, encodeXKK_toNat h]; omega
  · rw [fields_kk_toNat, encodeXKK_toNat h]; omega

/-! ### Formats XYN and XYS -/

theorem encodeXYN_toNat {op : Nat} (h : op < 16) (x y n : Fin 16) :
    (encodeXYN op x y n).toNat = op * 0x1000 + x.val * 0x100 + y.val * 0x10 + n.val := by
  have := x.isLt
  have := y.isLt
  have := n.isLt
  simp only [encodeXYN, BitVec.toNat_ofNat]
  omega

theorem fields_encodeXYN {op : Nat} (h : op < 16) (x y n : Fin 16) :
    (fields (encodeXYN op x y n)).op.toNat = op ∧ (fields (encodeXYN op x y n)).x = x ∧
      (fields (encodeXYN op x y n)).y = y ∧ (fields (encodeXYN op x y n)).n = n := by
  have := x.isLt
  have := y.isLt
  have := n.isLt
  refine ⟨?_, Fin.ext ?_, Fin.ext ?_, Fin.ext ?_⟩
  · rw [fields_op_toNat, encodeXYN_toNat h]; omega
  · rw [fields_x_val, encodeXYN_toNat h]; omega
  · rw [fields_y_val, encodeXYN_toNat h]; omega
  · rw [fields_n_val, encodeXYN_toNat h]; omega

/-! ### Bytes of a word -/

@[simp] theorem joinBytes_split (w : Word) : joinBytes (highByte w) (lowByte w) = w := by
  apply BitVec.eq_of_toNat_eq
  have := w.isLt
  simp only [joinBytes, highByte, lowByte, BitVec.toNat_append, BitVec.extractLsb'_toNat,
    Nat.shiftRight_eq_div_pow]
  rw [← Nat.shiftLeft_add_eq_or_of_lt (Nat.mod_lt _ (by norm_num)), Nat.shiftLeft_eq]
  omega

@[simp] theorem highByte_joinBytes (hi lo : Byte) : highByte (joinBytes hi lo) = hi :=
  BitVec.extractLsb'_append_eq_left

@[simp] theorem lowByte_joinBytes (hi lo : Byte) : lowByte (joinBytes hi lo) = lo :=
  BitVec.extractLsb'_append_eq_right

/-! ### Masks of the opcode table -/

/-- Mask 0xF000 keeps the field op. -/
theorem and_op (w : Word) : (w &&& 0xF000).toNat = w.toNat / 0x1000 * 0x1000 := by
  have h : w &&& (0xF000 : Word) = (w >>> 12) <<< 12 := by
    apply BitVec.eq_of_getLsbD_eq; intro i hi; interval_cases i <;> simp
  have := w.isLt
  rw [h]; simp only [BitVec.toNat_shiftLeft, BitVec.toNat_ushiftRight, Nat.shiftRight_eq_div_pow, Nat.shiftLeft_eq]; omega

theorem and_low_toNat {k : Nat} (w : Word) (hk : k < 16) : (w &&& BitVec.ofNat 16 (2 ^ k - 1)).toNat = w.toNat % 2 ^ k := by
  have : 2 ^ k ≤ 2 ^ 16 := Nat.pow_le_pow_right (by norm_num) (by omega)
  have : 0 < 2 ^ k := by positivity
  rw [BitVec.toNat_and, BitVec.toNat_ofNat, Nat.mod_eq_of_lt (by omega), Nat.and_two_pow_sub_one_eq_mod]

theorem and_op_low {k : Nat} (w : Word) (hk : k ≤ 12) :
    (w &&& ((0xF000 : Word) ||| BitVec.ofNat 16 (2 ^ k - 1))).toNat = w.toNat / 0x1000 * 0x1000 + w.toNat % 2 ^ k := by
  have hle : 2 ^ k ≤ 2 ^ 12 := Nat.pow_le_pow_right (by norm_num) hk
  have hdis : (w &&& (0xF000 : Word)) &&& (w &&& BitVec.ofNat 16 (2 ^ k - 1)) = 0#16 := by
    apply BitVec.eq_of_getLsbD_eq; intro i hi
    by_cases h12 : i < 12
    · have : (0xF000 : Word).getLsbD i = false := by interval_cases i <;> rfl
      simp only [BitVec.getLsbD_and, this]; simp
    · have : (BitVec.ofNat 16 (2 ^ k - 1)).getLsbD i = false := by
        simp [BitVec.getLsbD_ofNat, Nat.testBit_two_pow_sub_one]; omega
      simp only [BitVec.getLsbD_and, this]; simp
  rw [BitVec.and_or_distrib_left, ← BitVec.add_eq_or_of_and_eq_zero _ _ hdis, BitVec.toNat_add, and_op,
    and_low_toNat w (by omega), Nat.mod_eq_of_lt]
  have := w.isLt
  have := Nat.mod_lt w.toNat (show 0 < 2 ^ k by positivity)
  omega

/-- Mask 0xF00F keeps op and n. -/
theorem and_op_n (w : Word) : (w &&& 0xF00F).toNat = w.toNat / 0x1000 * 0x1000 + w.toNat % 0x10 :=
  and_op_low (k := 4) w (by omega)

/-- Mask 0xF0FF keeps op and kk. -/
theorem and_op_kk (w : Word) : (w &&& 0xF0FF).toNat = w.toNat / 0x1000 * 0x1000 + w.toNat % 0x100 :=
  and_op_low (k := 8) w (by omega)

/-- A row of mask 0xF000 matches by op alone. -/
theorem matchesWord_op (name : String) (p : Nat) (hp : p < 16) (w : Word) :
    (⟨name, 0xF000, BitVec.ofNat 16 (p * 0x1000)⟩ : OpcodeRow).matchesWord w = true ↔ w.toNat / 0x1000 = p := by
  have := w.isLt
  simp only [OpcodeRow.matchesWord, beq_iff_eq, ← BitVec.toNat_inj, and_op, BitVec.toNat_ofNat]
  omega

/-- A row of mask 0xF00F matches by op and n. -/
theorem matchesWord_op_n (name : String) (p n : Nat) (hp : p < 16) (hn : n < 16) (w : Word) :
    (⟨name, 0xF00F, BitVec.ofNat 16 (p * 0x1000 + n)⟩ : OpcodeRow).matchesWord w = true ↔
      w.toNat / 0x1000 = p ∧ w.toNat % 0x10 = n := by
  have := w.isLt
  simp only [OpcodeRow.matchesWord, beq_iff_eq, ← BitVec.toNat_inj, and_op_n, BitVec.toNat_ofNat]
  omega

/-- A row of mask 0xF0FF matches by op and kk. -/
theorem matchesWord_op_kk (name : String) (p k : Nat) (hp : p < 16) (hk : k < 256) (w : Word) :
    (⟨name, 0xF0FF, BitVec.ofNat 16 (p * 0x1000 + k)⟩ : OpcodeRow).matchesWord w = true ↔
      w.toNat / 0x1000 = p ∧ w.toNat % 0x100 = k := by
  have := w.isLt
  simp only [OpcodeRow.matchesWord, beq_iff_eq, ← BitVec.toNat_inj, and_op_kk, BitVec.toNat_ofNat]
  omega

end Sys2Proof
end

