-- ==== Sys2Proof/Laws/State.lean ====
section
/-! SUPPORT. One lemma per field per update, true by rfl (by unfolding where the unifier would evaluate a register file): what the updates of Ops, Operands and the meanings
write and what they leave. -/

namespace Sys2Proof.Machine

/-! ### setV -/

@[simp] theorem setV_mem (s : State) (i : Reg) (b : Byte) : (s.setV i b).mem = s.mem := rfl
@[simp] theorem setV_V (s : State) (i : Reg) (b : Byte) : (s.setV i b).V = s.V.set i b := rfl
@[simp] theorem setV_I (s : State) (i : Reg) (b : Byte) : (s.setV i b).I = s.I := rfl
@[simp] theorem setV_pc (s : State) (i : Reg) (b : Byte) : (s.setV i b).pc = s.pc := rfl
@[simp] theorem setV_stack (s : State) (i : Reg) (b : Byte) : (s.setV i b).stack = s.stack := rfl
@[simp] theorem setV_sp (s : State) (i : Reg) (b : Byte) : (s.setV i b).sp = s.sp := rfl
@[simp] theorem setV_dt (s : State) (i : Reg) (b : Byte) : (s.setV i b).dt = s.dt := rfl
@[simp] theorem setV_st (s : State) (i : Reg) (b : Byte) : (s.setV i b).st = s.st := rfl
@[simp] theorem setV_fb (s : State) (i : Reg) (b : Byte) : (s.setV i b).fb = s.fb := rfl
@[simp] theorem setV_key (s : State) (i : Reg) (b : Byte) : (s.setV i b).key = s.key := rfl
@[simp] theorem setV_redraw (s : State) (i : Reg) (b : Byte) : (s.setV i b).redraw = s.redraw := rfl
@[simp] theorem setV_fault (s : State) (i : Reg) (b : Byte) : (s.setV i b).fault = s.fault := rfl
@[simp] theorem setV_diag (s : State) (i : Reg) (b : Byte) : (s.setV i b).diag = s.diag := rfl
@[simp] theorem setV_draws (s : State) (i : Reg) (b : Byte) : (s.setV i b).draws = s.draws := rfl

/-! ### advance -/

@[simp] theorem advance_mem (s : State) (k : Word) : (s.advance k).mem = s.mem := rfl
@[simp] theorem advance_V (s : State) (k : Word) : (s.advance k).V = s.V := rfl
@[simp] theorem advance_I (s : State) (k : Word) : (s.advance k).I = s.I := rfl
@[simp] theorem advance_pc (s : State) (k : Word) : (s.advance k).pc = s.pc + k := rfl
@[simp] theorem advance_stack (s : State) (k : Word) : (s.advance k).stack = s.stack := rfl
@[simp] theorem advance_sp (s : State) (k : Word) : (s.advance k).sp = s.sp := rfl
@[simp] theorem advance_dt (s : State) (k : Word) : (s.advance k).dt = s.dt := rfl
@[simp] theorem advance_st (s : State) (k : Word) : (s.advance k).st = s.st := rfl
@[simp] theorem advance_fb (s : State) (k : Word) : (s.advance k).fb = s.fb := rfl
@[simp] theorem advance_key (s : State) (k : Word) : (s.advance k).key = s.key := rfl
@[simp] theorem advance_redraw (s : State) (k : Word) : (s.advance k).redraw = s.redraw := rfl
@[simp] theorem advance_fault (s : State) (k : Word) : (s.advance k).fault = s.fault := rfl
@[simp] theorem advance_diag (s : State) (k : Word) : (s.advance k).diag = s.diag := rfl
@[simp] theorem advance_draws (s : State) (k : Word) : (s.advance k).draws = s.draws := rfl

/-! ### skipIf -/

@[simp] theorem skipIf_mem (s : State) (taken : Bool) : (s.skipIf taken).mem = s.mem := rfl
@[simp] theorem skipIf_V (s : State) (taken : Bool) : (s.skipIf taken).V = s.V := rfl
@[simp] theorem skipIf_I (s : State) (taken : Bool) : (s.skipIf taken).I = s.I := rfl
@[simp] theorem skipIf_pc (s : State) (taken : Bool) : (s.skipIf taken).pc = s.pc + if taken then 4 else 2 := rfl
@[simp] theorem skipIf_stack (s : State) (taken : Bool) : (s.skipIf taken).stack = s.stack := rfl
@[simp] theorem skipIf_sp (s : State) (taken : Bool) : (s.skipIf taken).sp = s.sp := rfl
@[simp] theorem skipIf_dt (s : State) (taken : Bool) : (s.skipIf taken).dt = s.dt := rfl
@[simp] theorem skipIf_st (s : State) (taken : Bool) : (s.skipIf taken).st = s.st := rfl
@[simp] theorem skipIf_fb (s : State) (taken : Bool) : (s.skipIf taken).fb = s.fb := rfl
@[simp] theorem skipIf_key (s : State) (taken : Bool) : (s.skipIf taken).key = s.key := rfl
@[simp] theorem skipIf_redraw (s : State) (taken : Bool) : (s.skipIf taken).redraw = s.redraw := rfl
@[simp] theorem skipIf_fault (s : State) (taken : Bool) : (s.skipIf taken).fault = s.fault := rfl
@[simp] theorem skipIf_diag (s : State) (taken : Bool) : (s.skipIf taken).diag = s.diag := rfl
@[simp] theorem skipIf_draws (s : State) (taken : Bool) : (s.skipIf taken).draws = s.draws := rfl

/-! ### jump -/

@[simp] theorem jump_mem (s : State) (target : Word) : (s.jump target).mem = s.mem := rfl
@[simp] theorem jump_V (s : State) (target : Word) : (s.jump target).V = s.V := rfl
@[simp] theorem jump_I (s : State) (target : Word) : (s.jump target).I = s.I := rfl
@[simp] theorem jump_pc (s : State) (target : Word) : (s.jump target).pc = target := rfl
@[simp] theorem jump_stack (s : State) (target : Word) : (s.jump target).stack = s.stack := rfl
@[simp] theorem jump_sp (s : State) (target : Word) : (s.jump target).sp = s.sp := rfl
@[simp] theorem jump_dt (s : State) (target : Word) : (s.jump target).dt = s.dt := rfl
@[simp] theorem jump_st (s : State) (target : Word) : (s.jump target).st = s.st := rfl
@[simp] theorem jump_fb (s : State) (target : Word) : (s.jump target).fb = s.fb := rfl
@[simp] theorem jump_key (s : State) (target : Word) : (s.jump target).key = s.key := rfl
@[simp] theorem jump_redraw (s : State) (target : Word) : (s.jump target).redraw = s.redraw := rfl
@[simp] theorem jump_fault (s : State) (target : Word) : (s.jump target).fault = s.fault := rfl
@[simp] theorem jump_diag (s : State) (target : Word) : (s.jump target).diag = s.diag := rfl
@[simp] theorem jump_draws (s : State) (target : Word) : (s.jump target).draws = s.draws := rfl

/-! ### tick -/

@[simp] theorem tick_mem (s : State) : (s.tick).mem = s.mem := rfl
@[simp] theorem tick_V (s : State) : (s.tick).V = s.V := rfl
@[simp] theorem tick_I (s : State) : (s.tick).I = s.I := rfl
@[simp] theorem tick_pc (s : State) : (s.tick).pc = s.pc := rfl
@[simp] theorem tick_stack (s : State) : (s.tick).stack = s.stack := rfl
@[simp] theorem tick_sp (s : State) : (s.tick).sp = s.sp := rfl
@[simp] theorem tick_dt (s : State) : (s.tick).dt = countDown s.dt := rfl
@[simp] theorem tick_st (s : State) : (s.tick).st = countDown s.st := rfl
@[simp] theorem tick_fb (s : State) : (s.tick).fb = s.fb := rfl
@[simp] theorem tick_key (s : State) : (s.tick).key = s.key := rfl
@[simp] theorem tick_redraw (s : State) : (s.tick).redraw = s.redraw := rfl
@[simp] theorem tick_fault (s : State) : (s.tick).fault = s.fault := rfl
@[simp] theorem tick_diag (s : State) : (s.tick).diag = s.diag := rfl
@[simp] theorem tick_draws (s : State) : (s.tick).draws = s.draws := rfl

/-! ### raise -/

@[simp] theorem raise_mem (s : State) (f : Raise) : (raise f s).mem = s.mem := rfl
@[simp] theorem raise_V (s : State) (f : Raise) : (raise f s).V = s.V := rfl
@[simp] theorem raise_I (s : State) (f : Raise) : (raise f s).I = s.I := rfl
@[simp] theorem raise_pc (s : State) (f : Raise) : (raise f s).pc = s.pc := rfl
@[simp] theorem raise_stack (s : State) (f : Raise) : (raise f s).stack = s.stack := rfl
@[simp] theorem raise_sp (s : State) (f : Raise) : (raise f s).sp = s.sp := rfl
@[simp] theorem raise_dt (s : State) (f : Raise) : (raise f s).dt = s.dt := rfl
@[simp] theorem raise_st (s : State) (f : Raise) : (raise f s).st = s.st := rfl
@[simp] theorem raise_fb (s : State) (f : Raise) : (raise f s).fb = s.fb := rfl
@[simp] theorem raise_key (s : State) (f : Raise) : (raise f s).key = s.key := rfl
@[simp] theorem raise_redraw (s : State) (f : Raise) : (raise f s).redraw = s.redraw := rfl
@[simp] theorem raise_fault (s : State) (f : Raise) : (raise f s).fault = some ⟨f.1, f.2, s.pc⟩ := rfl
@[simp] theorem raise_diag (s : State) (f : Raise) : (raise f s).diag = s.diag := rfl
@[simp] theorem raise_draws (s : State) (f : Raise) : (raise f s).draws = s.draws := rfl

/-! ### pokeWord -/

@[simp] theorem pokeWord_mem (s : State) (w : Word) : (s.pokeWord w).mem = s.mem.writeBytes s.pc.toNat [highByte w, lowByte w] := rfl
@[simp] theorem pokeWord_V (s : State) (w : Word) : (s.pokeWord w).V = s.V := rfl
@[simp] theorem pokeWord_I (s : State) (w : Word) : (s.pokeWord w).I = s.I := rfl
@[simp] theorem pokeWord_pc (s : State) (w : Word) : (s.pokeWord w).pc = s.pc := rfl
@[simp] theorem pokeWord_stack (s : State) (w : Word) : (s.pokeWord w).stack = s.stack := rfl
@[simp] theorem pokeWord_sp (s : State) (w : Word) : (s.pokeWord w).sp = s.sp := rfl
@[simp] theorem pokeWord_dt (s : State) (w : Word) : (s.pokeWord w).dt = s.dt := rfl
@[simp] theorem pokeWord_st (s : State) (w : Word) : (s.pokeWord w).st = s.st := rfl
@[simp] theorem pokeWord_fb (s : State) (w : Word) : (s.pokeWord w).fb = s.fb := rfl
@[simp] theorem pokeWord_key (s : State) (w : Word) : (s.pokeWord w).key = s.key := rfl
@[simp] theorem pokeWord_redraw (s : State) (w : Word) : (s.pokeWord w).redraw = s.redraw := rfl
@[simp] theorem pokeWord_fault (s : State) (w : Word) : (s.pokeWord w).fault = s.fault := rfl
@[simp] theorem pokeWord_diag (s : State) (w : Word) : (s.pokeWord w).diag = s.diag := rfl
@[simp] theorem pokeWord_draws (s : State) (w : Word) : (s.pokeWord w).draws = s.draws := rfl

/-! ### loadThrough -/

@[simp] theorem loadThrough_mem (s : State) (x : Reg) : (s.loadThrough x).mem = s.mem := by
  simp only [State.loadThrough]
@[simp] theorem loadThrough_V (s : State) (x : Reg) : (s.loadThrough x).V = Vector.ofFn fun i : Fin 16 => if i ≤ x then s.mem.read (s.dataAddr i.val) else s.v i := by
  simp only [State.loadThrough]
@[simp] theorem loadThrough_I (s : State) (x : Reg) : (s.loadThrough x).I = s.I := by
  simp only [State.loadThrough]
@[simp] theorem loadThrough_pc (s : State) (x : Reg) : (s.loadThrough x).pc = s.pc := by
  simp only [State.loadThrough]
@[simp] theorem loadThrough_stack (s : State) (x : Reg) : (s.loadThrough x).stack = s.stack := by
  simp only [State.loadThrough]
@[simp] theorem loadThrough_sp (s : State) (x : Reg) : (s.loadThrough x).sp = s.sp := by
  simp only [State.loadThrough]
@[simp] theorem loadThrough_dt (s : State) (x : Reg) : (s.loadThrough x).dt = s.dt := by
  simp only [State.loadThrough]
@[simp] theorem loadThrough_st (s : State) (x : Reg) : (s.loadThrough x).st = s.st := by
  simp only [State.loadThrough]
@[simp] theorem loadThrough_fb (s : State) (x : Reg) : (s.loadThrough x).fb = s.fb := by
  simp only [State.loadThrough]
@[simp] theorem loadThrough_key (s : State) (x : Reg) : (s.loadThrough x).key = s.key := by
  simp only [State.loadThrough]
@[simp] theorem loadThrough_redraw (s : State) (x : Reg) : (s.loadThrough x).redraw = s.redraw := by
  simp only [State.loadThrough]
@[simp] theorem loadThrough_fault (s : State) (x : Reg) : (s.loadThrough x).fault = s.fault := by
  simp only [State.loadThrough]
@[simp] theorem loadThrough_diag (s : State) (x : Reg) : (s.loadThrough x).diag = s.diag := by
  simp only [State.loadThrough]
@[simp] theorem loadThrough_draws (s : State) (x : Reg) : (s.loadThrough x).draws = s.draws := by
  simp only [State.loadThrough]

/-! ### rndWith -/

@[simp] theorem rndWith_mem (s : State) (draw : Byte) (x : Reg) (kk : Byte) : (rndWith draw x kk s).mem = s.mem := rfl
@[simp] theorem rndWith_V (s : State) (draw : Byte) (x : Reg) (kk : Byte) : (rndWith draw x kk s).V = s.V.set x (draw &&& kk) := rfl
@[simp] theorem rndWith_I (s : State) (draw : Byte) (x : Reg) (kk : Byte) : (rndWith draw x kk s).I = s.I := rfl
@[simp] theorem rndWith_pc (s : State) (draw : Byte) (x : Reg) (kk : Byte) : (rndWith draw x kk s).pc = s.pc + 2 := rfl
@[simp] theorem rndWith_stack (s : State) (draw : Byte) (x : Reg) (kk : Byte) : (rndWith draw x kk s).stack = s.stack := rfl
@[simp] theorem rndWith_sp (s : State) (draw : Byte) (x : Reg) (kk : Byte) : (rndWith draw x kk s).sp = s.sp := rfl
@[simp] theorem rndWith_dt (s : State) (draw : Byte) (x : Reg) (kk : Byte) : (rndWith draw x kk s).dt = s.dt := rfl
@[simp] theorem rndWith_st (s : State) (draw : Byte) (x : Reg) (kk : Byte) : (rndWith draw x kk s).st = s.st := rfl
@[simp] theorem rndWith_fb (s : State) (draw : Byte) (x : Reg) (kk : Byte) : (rndWith draw x kk s).fb = s.fb := rfl
@[simp] theorem rndWith_key (s : State) (draw : Byte) (x : Reg) (kk : Byte) : (rndWith draw x kk s).key = s.key := rfl
@[simp] theorem rndWith_redraw (s : State) (draw : Byte) (x : Reg) (kk : Byte) : (rndWith draw x kk s).redraw = s.redraw := rfl
@[simp] theorem rndWith_fault (s : State) (draw : Byte) (x : Reg) (kk : Byte) : (rndWith draw x kk s).fault = s.fault := rfl
@[simp] theorem rndWith_diag (s : State) (draw : Byte) (x : Reg) (kk : Byte) : (rndWith draw x kk s).diag = s.diag := rfl
@[simp] theorem rndWith_draws (s : State) (draw : Byte) (x : Reg) (kk : Byte) : (rndWith draw x kk s).draws = s.draws + 1 := rfl

/-! ### flagThenResult -/

@[simp] theorem flagThenResult_mem (s : State) (mode : VfAliasRead) (x y : Reg) (flag : Byte → Byte → Bool)
    (result : Byte → Byte → Byte) : (s.flagThenResult mode x y flag result).mem = s.mem := by
  cases mode <;> rfl
@[simp] theorem flagThenResult_I (s : State) (mode : VfAliasRead) (x y : Reg) (flag : Byte → Byte → Bool)
    (result : Byte → Byte → Byte) : (s.flagThenResult mode x y flag result).I = s.I := by
  cases mode <;> rfl
@[simp] theorem flagThenResult_pc (s : State) (mode : VfAliasRead) (x y : Reg) (flag : Byte → Byte → Bool)
    (result : Byte → Byte → Byte) : (s.flagThenResult mode x y flag result).pc = s.pc := by
  cases mode <;> rfl
@[simp] theorem flagThenResult_stack (s : State) (mode : VfAliasRead) (x y : Reg) (flag : Byte → Byte → Bool)
    (result : Byte → Byte → Byte) : (s.flagThenResult mode x y flag result).stack = s.stack := by
  cases mode <;> rfl
@[simp] theorem flagThenResult_sp (s : State) (mode : VfAliasRead) (x y : Reg) (flag : Byte → Byte → Bool)
    (result : Byte → Byte → Byte) : (s.flagThenResult mode x y flag result).sp = s.sp := by
  cases mode <;> rfl
@[simp] theorem flagThenResult_dt (s : State) (mode : VfAliasRead) (x y : Reg) (flag : Byte → Byte → Bool)
    (result : Byte → Byte → Byte) : (s.flagThenResult mode x y flag result).dt = s.dt := by
  cases mode <;> rfl
@[simp] theorem flagThenResult_st (s : State) (mode : VfAliasRead) (x y : Reg) (flag : Byte → Byte → Bool)
    (result : Byte → Byte → Byte) : (s.flagThenResult mode x y flag result).st = s.st := by
  cases mode <;> rfl
@[simp] theorem flagThenResult_fb (s : State) (mode : VfAliasRead) (x y : Reg) (flag : Byte → Byte → Bool)
    (result : Byte → Byte → Byte) : (s.flagThenResult mode x y flag result).fb = s.fb := by
  cases mode <;> rfl
@[simp] theorem flagThenResult_key (s : State) (mode : VfAliasRead) (x y : Reg) (flag : Byte → Byte → Bool)
    (result : Byte → Byte → Byte) : (s.flagThenResult mode x y flag result).key = s.key := by
  cases mode <;> rfl
@[simp] theorem flagThenResult_redraw (s : State) (mode : VfAliasRead) (x y : Reg) (flag : Byte → Byte → Bool)
    (result : Byte → Byte → Byte) : (s.flagThenResult mode x y flag result).redraw = s.redraw := by
  cases mode <;> rfl
@[simp] theorem flagThenResult_fault (s : State) (mode : VfAliasRead) (x y : Reg) (flag : Byte → Byte → Bool)
    (result : Byte → Byte → Byte) : (s.flagThenResult mode x y flag result).fault = s.fault := by
  cases mode <;> rfl
@[simp] theorem flagThenResult_diag (s : State) (mode : VfAliasRead) (x y : Reg) (flag : Byte → Byte → Bool)
    (result : Byte → Byte → Byte) : (s.flagThenResult mode x y flag result).diag = s.diag := by
  cases mode <;> rfl
@[simp] theorem flagThenResult_draws (s : State) (mode : VfAliasRead) (x y : Reg) (flag : Byte → Byte → Bool)
    (result : Byte → Byte → Byte) : (s.flagThenResult mode x y flag result).draws = s.draws := by
  cases mode <;> rfl

end Sys2Proof.Machine
end

