-- ==== Sys2Proof/Laws/Ops.lean ====
section
/-! SUPPORT. What each shared operation can do, said once: the checks, the guard, push and pop, register reads after
writes, the flag-writing operation, the key scan, the fetch and the completed step. -/

namespace Sys2Proof.Machine

/-! ### Checks and guard -/

theorem readCheck_none {a : Nat} : readCheck a = none ↔ a ≤ 0xFFF := by
  simp [readCheck]

theorem writeCheck_none {a : Nat} : writeCheck a = none ↔ 0x200 ≤ a ∧ a ≤ 0xFFF := by
  unfold writeCheck
  simp only [Config.progBase]
  split_ifs <;> simp <;> omega

theorem keyCheck_none {k : Byte} : keyCheck k = none ↔ k.toNat ≤ 15 := by
  simp [keyCheck]

/-- No check fails exactly when none of the `n` addresses fails. -/
theorem firstFailure_none {check : Nat → Option Raise} {base n : Nat} :
    firstFailure check base n = none ↔ ∀ k < n, check (base + k) = none := by
  simp [firstFailure, List.findSome?_eq_none_iff]

theorem firstFailure_succ (check : Nat → Option Raise) (base n : Nat) :
    firstFailure check base (n + 1) = (firstFailure check base n).or (check (base + n)) := by
  simp only [firstFailure, List.range_succ, List.findSome?_append]
  cases (List.range n).findSome? fun k => check (base + k) <;> simp

/-- The reported failure is that of the first failing address: those before it pass. -/
theorem firstFailure_some {check : Nat → Option Raise} {base n : Nat} {f : Raise}
    (h : firstFailure check base n = some f) :
    ∃ k < n, check (base + k) = some f ∧ ∀ j < k, check (base + j) = none := by
  induction n with
  | zero => simp [firstFailure] at h
  | succ n ih =>
    rw [firstFailure_succ] at h
    cases hn : firstFailure check base n with
    | some g =>
      obtain ⟨k, hk, hc, hbefore⟩ := ih (by simpa [hn] using h)
      exact ⟨k, by omega, hc, hbefore⟩
    | none => exact ⟨n, by omega, by simpa [hn] using h, firstFailure_none.mp hn⟩

/-- All `n` reads from `base` are allowed. -/
theorem firstFailure_read_none {base n : Nat} :
    firstFailure readCheck base n = none ↔ n = 0 ∨ base + n ≤ 0x1000 := by
  rw [firstFailure_none]
  constructor
  · intro h
    rcases n with _ | n
    · exact .inl rfl
    · have := readCheck_none.mp (h n (by omega)); omega
  · intro h k hk
    exact readCheck_none.mpr (by omega)

/-- All `n` writes from `base` are allowed. -/
theorem firstFailure_write_none {base n : Nat} :
    firstFailure writeCheck base n = none ↔ n = 0 ∨ (0x200 ≤ base ∧ base + n ≤ 0x1000) := by
  rw [firstFailure_none]
  constructor
  · intro h
    rcases n with _ | n
    · exact .inl rfl
    · have h0 := writeCheck_none.mp (h 0 (by omega))
      have hn := writeCheck_none.mp (h n (by omega))
      omega
  · intro h k hk
    exact writeCheck_none.mpr (by omega)

/-- A guarded effect answers a next state always: the fault entry of its failed check, or the effect. -/
theorem guarded_next {failure : Option Raise} {s effect t : State} (h : guarded failure s effect = .next t) :
    (∃ f, failure = some f ∧ t = raise f s) ∨ (failure = none ∧ t = effect) := by
  cases failure with
  | some f => exact .inl ⟨f, rfl, by simpa [guarded] using h.symm⟩
  | none => exact .inr ⟨rfl, by simpa [guarded] using h.symm⟩

@[simp] theorem guarded_none (s effect : State) : guarded none s effect = .next effect := rfl
@[simp] theorem guarded_some (f : Raise) (s effect : State) : guarded (some f) s effect = .next (raise f s) := rfl

/-! ### Registers -/

theorem v_setV (s : State) (i j : Reg) (b : Byte) : (s.setV i b).v j = if j = i then b else s.v j := by
  simp only [State.v, State.setV, Fin.getElem_fin, Vector.getElem_set]
  by_cases h : j = i
  · simp [h]
  · simp [h, Fin.val_inj, Ne.symm h]

@[simp] theorem v_setV_same (s : State) (i : Reg) (b : Byte) : (s.setV i b).v i = b := by simp [v_setV]

@[simp] theorem v_advance (s : State) (k : Word) (i : Reg) : (s.advance k).v i = s.v i := rfl

@[simp] theorem length_bcdDigits (b : Byte) : (bcdDigits b).length = 3 := rfl

/-- What a register holds after a block load. -/
theorem v_loadThrough (s : State) (x i : Reg) :
    (s.loadThrough x).v i = if i ≤ x then s.mem.read (s.dataAddr i.val) else s.v i := by
  simp [State.v, State.loadThrough]

theorem length_regsThrough (s : State) (x : Reg) : (s.regsThrough x).length = x.val + 1 := by
  simp [State.regsThrough]

theorem getElem_regsThrough (s : State) (x : Reg) (k : Nat) (h : k < (s.regsThrough x).length) :
    (s.regsThrough x)[k] = s.V[k]'(by rw [length_regsThrough] at h; omega) := by
  simp [State.regsThrough]

/-- The registers after a flag-writing instruction: V[x] holds the result, VF the flag unless x is VF. -/
theorem v_flagThenResult (s : State) (mode : VfAliasRead) (x y j : Reg) (flag : Byte → Byte → Bool)
    (result : Byte → Byte → Byte) :
    (s.flagThenResult mode x y flag result).v j =
      let f := flagByte (flag (s.v x) (s.v y))
      let seen := fun r : Reg => if mode = .afterFlag ∧ r = vf then f else s.v r
      if j = x then result (seen x) (seen y) else if j = vf then f else s.v j := by
  cases mode <;> simp [State.flagThenResult, v_setV]

/-! ### Stack -/

/-- Everything a push can do. -/
theorem push_cases (s : State) (w : Word) :
    (s.sp.val = 16 ∧ s.push w = none) ∨
    ∃ h : s.sp.val < 16,
      s.push w = some { s with stack := s.stack.set s.sp.val w h, sp := ⟨s.sp.val + 1, by omega⟩ } := by
  by_cases h : s.sp.val < 16
  · exact .inr ⟨h, by simp [State.push, h]⟩
  · exact .inl ⟨by omega, by simp [State.push, h]⟩

/-- Everything a pop can do. -/
theorem pop_cases (s : State) :
    (s.sp.val = 0 ∧ s.pop = none) ∨
    ∃ h : 0 < s.sp.val,
      s.pop = some (s.stack[s.sp.val - 1]'(by have := s.sp.isLt; simp only [Config.stackDepth]; omega),
        { s with sp := ⟨s.sp.val - 1, by omega⟩ }) := by
  by_cases h : 0 < s.sp.val
  · exact .inr ⟨h, by simp [State.pop, h]⟩
  · exact .inl ⟨by omega, by simp [State.pop, h]⟩

/-! ### Keypad -/

theorem keyPressed_eq (s : State) (k : Fin 16) : s.keyPressed k.val = s.key[k] := by
  simp [State.keyPressed]

/-- The scan finds the lowest pressed key. -/
theorem firstKey_some {s : State} {k : Nat} (h : s.firstKey = some k) :
    k < 16 ∧ s.keyPressed k = true ∧ ∀ j < k, s.keyPressed j = false := by
  obtain ⟨hp, as, bs, hsplit, hbefore⟩ := List.find?_eq_some_iff_append.mp h
  have hk : k < 16 := by
    have : k ∈ List.range Config.numKeys := by rw [hsplit]; simp
    simpa using this
  refine ⟨hk, hp, fun j hj => ?_⟩
  have hlen : as.length = k := by
    have := congrArg (fun l => l[as.length]?) hsplit
    simp only [List.getElem?_append_right (le_refl _), Nat.sub_self, List.getElem?_cons_zero] at this
    exact (List.getElem?_eq_some_iff.mp this).2 ▸ by simp
  have hmem : j ∈ as := by
    have := congrArg (fun l => l[j]?) hsplit
    rw [List.getElem?_append_left (by omega)] at this
    rw [List.getElem?_eq_getElem (by simp [Config.numKeys]; omega)] at this
    have h2 := (List.getElem?_eq_some_iff.mp this.symm)
    obtain ⟨_, he⟩ := h2
    simp only [List.getElem_range] at he
    exact he ▸ List.getElem_mem _
  simpa using hbefore j hmem

theorem firstKey_none {s : State} : s.firstKey = none ↔ ∀ k < 16, s.keyPressed k = false := by
  simp [State.firstKey, List.find?_eq_none]

/-! ### The step around an instruction -/

theorem countDown_toNat (t : Byte) : (countDown t).toNat = t.toNat - 1 := by
  unfold countDown
  split_ifs with h
  · simp [h]
  · have : t.toNat ≠ 0 := fun h0 => h (BitVec.eq_of_toNat_eq (by simpa using h0))
    simp only [BitVec.toNat_sub]
    have := t.isLt
    simp; omega

/-- A completed instruction is ticked; one that raised a fault is not. -/
theorem completeStep_next {o : Outcome} {t : State} (h : completeStep o = .next t) :
    ∃ u, o = .next u ∧ ((u.fault = none ∧ t = u.tick) ∨ (u.fault.isSome ∧ t = u)) := by
  cases o with
  | next u =>
    refine ⟨u, rfl, ?_⟩
    cases hu : u.fault <;> simp_all [completeStep]
  | fault r => simp [completeStep] at h
  | refused r => simp [completeStep] at h

/-- Everything a step that answers a next state can be. -/
theorem step_next {s t : State} (h : step s = .next t) :
    s.fault = none ∧
      ((fetchWord s = none ∧ t = raise (fetchRaise s) s) ∨
       ∃ w, fetchWord s = some w ∧ completeStep (exec (decodeWord w) s) = .next t) := by
  unfold step at h
  cases hf : s.fault with
  | some r => simp [hf] at h
  | none =>
    refine ⟨rfl, ?_⟩
    cases hw : fetchWord s with
    | none => left; simpa [hf, hw, eq_comm] using h
    | some w => right; exact ⟨w, rfl, by simpa [hf, hw] using h⟩

/-- The fetch succeeds exactly while pc is at most 0xFFE. -/
theorem fetchWord_none {s : State} : fetchWord s = none ↔ 0xFFE < s.pc.toNat := by
  simp [fetchWord]

/-- The word of every fetch in range, as the bytes memory then holds. -/
theorem fetchWord_some {s : State} (h : s.pc.toNat ≤ 0xFFE) :
    fetchWord s = some (s.mem.read s.pc.toNat ++ s.mem.read (s.pc.toNat + 1)) := by
  rw [fetchWord, if_neg (by omega)]; rfl

/-- No step of a run from an unfaulted state is refused or stops: the one stop is a core that is already faulted. -/
theorem step_faulted {s : State} {r : FaultRecord} (h : s.fault = some r) : step s = .fault (.halted r) := by
  simp [step, h]

/-- The host's Step is the machine's next state where there is one. -/
theorem stepOp_eq {s t : State} (h : step s = .next t) : s.stepOp = t := by
  simp [State.stepOp, h]

end Sys2Proof.Machine
end

