-- ==== Sys2Proof/Laws/Display.lean ====
section
/-! SUPPORT. What the renderer does, pixel by pixel: each covered pixel is inverted once, every other keeps its value,
and the collision flag is whether a covered pixel was set (47_display.md R222, R224, R226). -/

namespace Sys2Proof.Machine

theorem pixelIndex_eq {a p b q : Nat} : pixelIndex a p = pixelIndex b q ↔ a % 64 = b % 64 ∧ p % 32 = q % 32 := by
  simp only [pixelIndex, Fin.mk.injEq, Config.fbWidth, Config.fbHeight]
  omega

/-- Pixel k is hit by a set bit among the first `n` columns of row `py`. -/
def RowCovers (ox py : Nat) (b : Byte) (n : Nat) (k : Fin Config.fbSize) : Prop :=
  ∃ c < n, b.getLsbD (7 - c) = true ∧ k = pixelIndex (ox + c) py

theorem rowCovers_succ {ox py n : Nat} {b : Byte} {k : Fin Config.fbSize} :
    RowCovers ox py b (n + 1) k ↔
      RowCovers ox py b n k ∨ (b.getLsbD (7 - n) = true ∧ k = pixelIndex (ox + n) py) := by
  constructor
  · rintro ⟨c, hc, hb, hk⟩
    by_cases h : c = n
    · subst h; exact .inr ⟨hb, hk⟩
    · exact .inl ⟨c, by omega, hb, hk⟩
  · rintro (⟨c, hc, hb, hk⟩ | ⟨hb, hk⟩)
    · exact ⟨c, by omega, hb, hk⟩
    · exact ⟨n, by omega, hb, hk⟩

/-- No earlier column of a row has the pixel of column n (R226). -/
theorem not_rowCovers_next {ox py n : Nat} {b : Byte} (hn : n < 64) :
    ¬ RowCovers ox py b n (pixelIndex (ox + n) py) := by
  rintro ⟨c, hc, -, hk⟩
  have := pixelIndex_eq.mp hk
  omega

theorem drawPixel_pixel (ox py c : Nat) (b : Byte) (cv : Canvas) (k : Fin Config.fbSize) :
    (drawPixel ox py b cv c).1[k] =
      if b.getLsbD (7 - c) = true ∧ k = pixelIndex (ox + c) py then !cv.1[k] else cv.1[k] := by
  unfold drawPixel
  by_cases hb : b.getLsbD (7 - c) = true
  · by_cases hk : k = pixelIndex (ox + c) py
    · simp [hb, hk]
    · have : (pixelIndex (ox + c) py).val ≠ k.val := fun h => hk (Fin.ext h.symm)
      simp [hb, hk, this]
  · simp [hb]

theorem drawPixel_hit (ox py c : Nat) (b : Byte) (cv : Canvas) :
    (drawPixel ox py b cv c).2 = true ↔
      cv.2 = true ∨ (b.getLsbD (7 - c) = true ∧ cv.1[pixelIndex (ox + c) py] = true) := by
  unfold drawPixel
  by_cases hb : b.getLsbD (7 - c) = true <;> simp [hb]

/-- The first `n` columns of a row. -/
theorem drawColumns_spec (ox py : Nat) (b : Byte) (cv : Canvas) {n : Nat} (hn : n ≤ 64) :
    let r := (List.range n).foldl (drawPixel ox py b) cv
    (∀ k, RowCovers ox py b n k → r.1[k] = !cv.1[k]) ∧
    (∀ k, ¬ RowCovers ox py b n k → r.1[k] = cv.1[k]) ∧
    (r.2 = true ↔ cv.2 = true ∨ ∃ k, RowCovers ox py b n k ∧ cv.1[k] = true) := by
  induction n with
  | zero => simp [RowCovers]
  | succ n ih =>
    obtain ⟨hin, hout, hhit⟩ := ih (by omega)
    have hfresh := not_rowCovers_next (ox := ox) (py := py) (b := b) (n := n) (by omega)
    simp only [List.range_succ, List.foldl_append, List.foldl_cons, List.foldl_nil]
    refine ⟨fun k hk => ?_, fun k hk => ?_, ?_⟩
    · rw [drawPixel_pixel]
      rcases rowCovers_succ.mp hk with hk | ⟨hb, rfl⟩
      · have : k ≠ pixelIndex (ox + n) py := by rintro rfl; exact hfresh hk
        simp [this, hin k hk]
      · simp [hb, hout _ hfresh]
    · rw [rowCovers_succ, not_or] at hk
      rw [drawPixel_pixel, if_neg hk.2, hout k hk.1]
    · rw [drawPixel_hit, hhit, hout _ hfresh]
      constructor
      · rintro ((h | ⟨k, hk, hset⟩) | ⟨hb, hset⟩)
        · exact .inl h
        · exact .inr ⟨k, rowCovers_succ.mpr (.inl hk), hset⟩
        · exact .inr ⟨_, rowCovers_succ.mpr (.inr ⟨hb, rfl⟩), hset⟩
      · rintro (h | ⟨k, hk, hset⟩)
        · exact .inl (.inl h)
        · rcases rowCovers_succ.mp hk with hk | ⟨hb, rfl⟩
          · exact .inl (.inr ⟨k, hk, hset⟩)
          · exact .inr ⟨hb, hset⟩

/-- One sprite row (R222, DrawRow). -/
theorem drawRow_spec (ox py : Nat) (cv : Canvas) (b : Byte) :
    (∀ k, RowCovers ox py b 8 k → (drawRow ox py cv b).1[k] = !cv.1[k]) ∧
    (∀ k, ¬ RowCovers ox py b 8 k → (drawRow ox py cv b).1[k] = cv.1[k]) ∧
    ((drawRow ox py cv b).2 = true ↔ cv.2 = true ∨ ∃ k, RowCovers ox py b 8 k ∧ cv.1[k] = true) :=
  drawColumns_spec ox py b cv (by omega)

/-- Pixel k is hit by a set bit of a sprite whose top row is `oy`. -/
def SpriteCovers (ox oy : Nat) (rows : List Byte) (k : Fin Config.fbSize) : Prop :=
  ∃ r, ∃ h : r < rows.length, RowCovers ox (oy + r) rows[r] 8 k

theorem spriteCovers_cons {ox oy : Nat} {b : Byte} {bs : List Byte} {k : Fin Config.fbSize} :
    SpriteCovers ox oy (b :: bs) k ↔ RowCovers ox oy b 8 k ∨ SpriteCovers ox (oy + 1) bs k := by
  constructor
  · rintro ⟨r, hr, hk⟩
    rcases r with _ | r
    · exact .inl (by simpa using hk)
    · exact .inr ⟨r, by simpa using hr, by simpa [show oy + 1 + r = oy + (r + 1) by omega] using hk⟩
  · rintro (hk | ⟨r, hr, hk⟩)
    · exact ⟨0, by simp, by simpa using hk⟩
    · exact ⟨r + 1, by simpa using hr, by simpa [show oy + (r + 1) = oy + 1 + r by omega] using hk⟩

/-- A row and the rows under it share no pixel (R226). -/
theorem rowCovers_disjoint {ox oy : Nat} {b : Byte} {bs : List Byte} {k : Fin Config.fbSize}
    (hlen : bs.length < 32) (hk : RowCovers ox oy b 8 k) : ¬ SpriteCovers ox (oy + 1) bs k := by
  obtain ⟨c, -, -, rfl⟩ := hk
  rintro ⟨r, hr, d, -, -, he⟩
  have := pixelIndex_eq.mp he
  omega

/-- A whole sprite of at most 32 rows (R223, R224). -/
theorem drawRows_spec (ox oy : Nat) (rows : List Byte) (cv : Canvas) (hlen : rows.length ≤ 32) :
    (∀ k, SpriteCovers ox oy rows k → (drawRows ox oy rows cv).1[k] = !cv.1[k]) ∧
    (∀ k, ¬ SpriteCovers ox oy rows k → (drawRows ox oy rows cv).1[k] = cv.1[k]) ∧
    ((drawRows ox oy rows cv).2 = true ↔ cv.2 = true ∨ ∃ k, SpriteCovers ox oy rows k ∧ cv.1[k] = true) := by
  induction rows generalizing oy cv with
  | nil => simp [drawRows, SpriteCovers]
  | cons b bs ih =>
    simp only [List.length_cons] at hlen
    obtain ⟨rin, rout, rhit⟩ := drawRow_spec ox oy cv b
    obtain ⟨sin, sout, shit⟩ := ih (oy + 1) (drawRow ox oy cv b) (by omega)
    simp only [drawRows]
    refine ⟨fun k hk => ?_, fun k hk => ?_, ?_⟩
    · by_cases hr : RowCovers ox oy b 8 k
      · rw [sout k (rowCovers_disjoint (by omega) hr), rin k hr]
      · have hs := (spriteCovers_cons.mp hk).resolve_left hr
        rw [sin k hs, rout k hr]
    · rw [spriteCovers_cons, not_or] at hk
      rw [sout k hk.2, rout k hk.1]
    · rw [shit, rhit]
      constructor
      · rintro ((h | ⟨k, hk, hset⟩) | ⟨k, hk, hset⟩)
        · exact .inl h
        · exact .inr ⟨k, spriteCovers_cons.mpr (.inl hk), hset⟩
        · have hr : ¬ RowCovers ox oy b 8 k := fun hr => rowCovers_disjoint (by omega) hr hk
          exact .inr ⟨k, spriteCovers_cons.mpr (.inr hk), by rwa [rout k hr] at hset⟩
      · rintro (h | ⟨k, hk, hset⟩)
        · exact .inl (.inl h)
        · by_cases hr : RowCovers ox oy b 8 k
          · exact .inl (.inr ⟨k, hr, hset⟩)
          · exact .inr ⟨k, (spriteCovers_cons.mp hk).resolve_left hr, by rwa [rout k hr]⟩

end Sys2Proof.Machine
end

