-- ==== Sys2Proof/Laws/Memory.lean ====
section
/-! SUPPORT. The laws of memory: a read after a write, writes of several bytes, and that every operation keeps the
canonical form and the untouched region below 0x200. -/

namespace Sys2Proof.Machine.Memory

/-! ### Reads after writes -/

theorem read_erase_same (m : Memory) (a : Nat) : read (erase m a) a = unlisted a := by
  induction m with
  | nil => rfl
  | cons c rest ih =>
    obtain ⟨b, w⟩ := c
    by_cases h : b = a
    · simpa [erase, h] using ih
    · simpa [erase, h, read, Ne.symm h] using ih

theorem read_erase_other (m : Memory) {a b : Nat} (h : b ≠ a) : read (erase m a) b = read m b := by
  induction m with
  | nil => rfl
  | cons c rest ih =>
    obtain ⟨k, w⟩ := c
    by_cases hk : k = a
    · subst hk; simpa [erase, read, h] using ih
    · by_cases hb : b = k
      · simp [erase, hk, read, hb]
      · simpa [erase, hk, read, hb] using ih

theorem read_insert_other (m : Memory) {a b : Nat} (v : Byte) (h : b ≠ a) : read (insert m a v) b = read m b := by
  induction m with
  | nil => simp [insert, read, h]
  | cons c rest ih =>
    obtain ⟨k, w⟩ := c
    by_cases hk : a < k
    · simp [insert, hk, read, h]
    · by_cases hb : b = k <;> simp [insert, hk, read, hb, ih]

theorem read_insert_same (m : Memory) (a : Nat) (v : Byte) (h : ∀ c ∈ m, c.1 ≠ a) : read (insert m a v) a = v := by
  induction m with
  | nil => simp [insert, read]
  | cons c rest ih =>
    obtain ⟨k, w⟩ := c
    have hk : k ≠ a := h (k, w) (by simp)
    by_cases hlt : a < k
    · simp [insert, hlt, read]
    · simp [insert, hlt, read, Ne.symm hk, ih fun c hc => h c (List.mem_cons_of_mem _ hc)]

theorem mem_erase_ne {m : Memory} {a : Nat} {c : Host.Cell} (h : c ∈ erase m a) : c.1 ≠ a := by
  simpa using (List.mem_filter.mp h).2

@[simp] theorem read_write_same (m : Memory) (a : Nat) (v : Byte) : read (write m a v) a = v := by
  by_cases h : v = unlisted a
  · simp [write, h, read_erase_same]
  · simp only [write, if_neg h]
    exact read_insert_same _ _ _ fun _ hc => mem_erase_ne hc

theorem read_write_other (m : Memory) {a b : Nat} (v : Byte) (h : b ≠ a) : read (write m a v) b = read m b := by
  by_cases hv : v = unlisted a
  · simp [write, hv, read_erase_other _ h]
  · simp [write, hv, read_insert_other _ _ h, read_erase_other _ h]

theorem read_write (m : Memory) (a b : Nat) (v : Byte) : read (write m a v) b = if b = a then v else read m b := by
  by_cases h : b = a
  · simp [h]
  · simp [h, read_write_other]

/-- Everything a block write can do: byte k of the block at `a + k`, every other address as before. -/
theorem read_writeBytes (m : Memory) (a : Nat) (vs : List Byte) (b : Nat) :
    read (writeBytes m a vs) b = if h : a ≤ b ∧ b < a + vs.length then vs[b - a]'(by omega) else read m b := by
  induction vs generalizing m a with
  | nil => simp [writeBytes]
  | cons v vs ih =>
    rw [writeBytes, ih, read_write]
    by_cases hb : b = a
    · subst hb; simp
    · by_cases hin : a + 1 ≤ b ∧ b < a + 1 + vs.length
      · rw [dif_pos hin, dif_pos (by simp; omega)]
        have : b - a = (b - (a + 1)) + 1 := by omega
        simp [this]
      · rw [dif_neg hin, dif_neg (by simp; omega), if_neg hb]

theorem length_readBytes (m : Memory) (a n : Nat) : (readBytes m a n).length = n := by simp [readBytes]

theorem getElem_readBytes (m : Memory) (a n k : Nat) (h : k < (readBytes m a n).length) :
    (readBytes m a n)[k] = read m (a + k) := by simp [readBytes]

/-! ### The canonical form -/

theorem wf_iff (m : Memory) : wf m = true ↔
    m.Pairwise (fun c d => c.1 < d.1) ∧ ∀ c ∈ m, c.1 < Config.memSize ∧ c.2 ≠ unlisted c.1 := by
  simp [wf, List.all_eq_true]

theorem lowClear_iff (m : Memory) : lowClear m = true ↔ ∀ c ∈ m, Config.progBase ≤ c.1 := by
  simp [lowClear, List.all_eq_true]

theorem mem_insert {m : Memory} {a : Nat} {v : Byte} {c : Host.Cell} :
    c ∈ insert m a v ↔ c = (a, v) ∨ c ∈ m := by
  induction m with
  | nil => simp [insert]
  | cons d rest ih =>
    obtain ⟨k, w⟩ := d
    by_cases hk : a < k
    · simp [insert, hk]
    · simp only [insert, if_neg hk, List.mem_cons, ih]; tauto

theorem pairwise_insert {m : Memory} {a : Nat} (v : Byte) (hs : m.Pairwise fun c d => c.1 < d.1)
    (hne : ∀ c ∈ m, c.1 ≠ a) : (insert m a v).Pairwise fun c d => c.1 < d.1 := by
  induction m with
  | nil => simp [insert]
  | cons d rest ih =>
    obtain ⟨k, w⟩ := d
    rw [List.pairwise_cons] at hs
    by_cases hk : a < k
    · simp only [insert, if_pos hk, List.pairwise_cons]
      refine ⟨fun c hc => ?_, hs.1, hs.2⟩
      rcases List.mem_cons.mp hc with rfl | hc
      · exact hk
      · exact hk.trans (hs.1 c hc)
    · have hka : k < a := lt_of_le_of_ne (not_lt.mp hk) (hne (k, w) (by simp))
      simp only [insert, if_neg hk, List.pairwise_cons]
      refine ⟨fun c hc => ?_, ih hs.2 fun c hc => hne c (List.mem_cons_of_mem _ hc)⟩
      rcases mem_insert.mp hc with rfl | hc
      · exact hka
      · exact hs.1 c hc

theorem wf_erase {m : Memory} (a : Nat) (h : wf m = true) : wf (erase m a) = true := by
  rw [wf_iff] at h ⊢
  exact ⟨h.1.filter _, fun c hc => h.2 c (List.mem_filter.mp hc).1⟩

theorem wf_write {m : Memory} {a : Nat} (v : Byte) (h : wf m = true) (ha : a < Config.memSize) :
    wf (write m a v) = true := by
  by_cases hv : v = unlisted a
  · simpa [write, hv] using wf_erase a h
  · have he := (wf_iff _).mp (wf_erase a h)
    simp only [write, if_neg hv]
    refine (wf_iff _).mpr ⟨pairwise_insert v he.1 fun c hc => mem_erase_ne hc, fun c hc => ?_⟩
    rcases mem_insert.mp hc with rfl | hc
    · exact ⟨ha, hv⟩
    · exact he.2 c hc

/-- A block write inside the address space keeps the canonical form. -/
theorem wf_writeBytes {m : Memory} {a : Nat} (vs : List Byte) (h : wf m = true) (ha : a + vs.length ≤ Config.memSize) :
    wf (writeBytes m a vs) = true := by
  induction vs generalizing m a with
  | nil => exact h
  | cons v vs ih =>
    simp only [List.length_cons] at ha
    exact ih (wf_write v h (by omega)) (by omega)

theorem lowClear_write {m : Memory} {a : Nat} (v : Byte) (h : lowClear m = true) (ha : Config.progBase ≤ a) :
    lowClear (write m a v) = true := by
  rw [lowClear_iff] at h ⊢
  intro c hc
  by_cases hv : v = unlisted a
  · rw [write, if_pos hv] at hc
    exact h c (List.mem_filter.mp hc).1
  · simp only [write, if_neg hv] at hc
    rcases mem_insert.mp hc with rfl | hc
    · exact ha
    · exact h c (List.mem_filter.mp hc).1

/-- A block write at or above 0x200 leaves the region below it unlisted. -/
theorem lowClear_writeBytes {m : Memory} {a : Nat} (vs : List Byte) (h : lowClear m = true)
    (ha : Config.progBase ≤ a) : lowClear (writeBytes m a vs) = true := by
  induction vs generalizing m a with
  | nil => exact h
  | cons v vs ih => exact ih (lowClear_write v h ha) (by omega)

/-- While nothing below 0x200 is listed, that region reads as construction left it. -/
theorem read_low {m : Memory} {a : Nat} (h : lowClear m = true) (ha : a < Config.progBase) :
    read m a = unlisted a := by
  induction m with
  | nil => rfl
  | cons c rest ih =>
    obtain ⟨k, w⟩ := c
    rw [lowClear_iff] at h
    have hk : Config.progBase ≤ k := h (k, w) (by simp)
    have : a ≠ k := by omega
    simpa [read, this] using ih ((lowClear_iff _).mpr fun d hd => h d (List.mem_cons_of_mem _ hd))

end Sys2Proof.Machine.Memory
end

