-- ==== Sys2Proof/Laws/PerInstr.lean ====
section
/-! SUPPORT. Laws stated for all instructions, one lemma per constructor. Family EncodesInRow: an instruction's word
matches its own row of the opcode table (30_encoding.md R85, R86). -/

namespace Sys2Proof.Laws.EncodesInRow

/-- The word of `i` matches the row with `i`'s mnemonic; an UNKNOWN term, which has no row, carries an unknown word. -/
def Statement (i : Instr) : Prop :=
  match opcodeRows.find? fun r => r.mnemonic == i.mnemonic with
  | some r => r.matchesWord (encode i) = true
  | none => i.wf = true → isUnknownWord (encode i) = true

theorem nnnRow (name : String) (op : Nat) (h : op < 16) (nnn : Addr) :
    (⟨name, 0xF000, BitVec.ofNat 16 (op * 0x1000)⟩ : OpcodeRow).matchesWord (encodeNNN op nnn) = true := by
  have := nnn.isLt
  rw [matchesWord_op name op h, encodeNNN_toNat h]; omega

theorem xkkRow (name : String) (op : Nat) (h : op < 16) (x : Reg) (kk : Byte) :
    (⟨name, 0xF000, BitVec.ofNat 16 (op * 0x1000)⟩ : OpcodeRow).matchesWord (encodeXKK op x kk) = true := by
  have := kk.isLt
  have := x.isLt
  rw [matchesWord_op name op h, encodeXKK_toNat h]; omega

theorem xynRow (name : String) (op : Nat) (h : op < 16) (x y n : Fin 16) :
    (⟨name, 0xF000, BitVec.ofNat 16 (op * 0x1000)⟩ : OpcodeRow).matchesWord (encodeXYN op x y n) = true := by
  have := x.isLt
  have := y.isLt
  have := n.isLt
  rw [matchesWord_op name op h, encodeXYN_toNat h]; omega

theorem xysRow (name : String) (op : Nat) (h : op < 16) (x y n : Fin 16) :
    (⟨name, 0xF00F, BitVec.ofNat 16 (op * 0x1000 + n.val)⟩ : OpcodeRow).matchesWord (encodeXYN op x y n) = true := by
  have := x.isLt
  have := y.isLt
  have := n.isLt
  rw [matchesWord_op_n name op n.val h n.isLt, encodeXYN_toNat h]; omega

theorem xsRow (name : String) (op : Nat) (h : op < 16) (x : Reg) (kk : Byte) :
    (⟨name, 0xF0FF, BitVec.ofNat 16 (op * 0x1000 + kk.toNat)⟩ : OpcodeRow).matchesWord (encodeXKK op x kk) = true := by
  have := kk.isLt
  have := x.isLt
  rw [matchesWord_op_kk name op kk.toNat h kk.isLt, encodeXKK_toNat h]; omega

theorem cls : Statement .cls := by
  show OpcodeRow.matchesWord ⟨"CLS", 0xFFFF, 0x00E0⟩ 0x00E0 = true
  decide
theorem ret : Statement .ret := by
  show OpcodeRow.matchesWord ⟨"RET", 0xFFFF, 0x00EE⟩ 0x00EE = true
  decide
theorem jp (nnn : Addr) : Statement (.jp nnn) := nnnRow _ 0x1 (by omega) nnn
theorem call (nnn : Addr) : Statement (.call nnn) := nnnRow _ 0x2 (by omega) nnn
theorem seImm (x : Reg) (kk : Byte) : Statement (.seImm x kk) := xkkRow _ 0x3 (by omega) x kk
theorem sneImm (x : Reg) (kk : Byte) : Statement (.sneImm x kk) := xkkRow _ 0x4 (by omega) x kk
theorem seReg (x y : Reg) : Statement (.seReg x y) := xysRow _ 0x5 (by omega) x y 0x0
theorem ldImm (x : Reg) (kk : Byte) : Statement (.ldImm x kk) := xkkRow _ 0x6 (by omega) x kk
theorem addImm (x : Reg) (kk : Byte) : Statement (.addImm x kk) := xkkRow _ 0x7 (by omega) x kk
theorem ldReg (x y : Reg) : Statement (.ldReg x y) := xysRow _ 0x8 (by omega) x y 0x0
theorem orReg (x y : Reg) : Statement (.orReg x y) := xysRow _ 0x8 (by omega) x y 0x1
theorem andReg (x y : Reg) : Statement (.andReg x y) := xysRow _ 0x8 (by omega) x y 0x2
theorem xorReg (x y : Reg) : Statement (.xorReg x y) := xysRow _ 0x8 (by omega) x y 0x3
theorem addReg (x y : Reg) : Statement (.addReg x y) := xysRow _ 0x8 (by omega) x y 0x4
theorem sub (x y : Reg) : Statement (.sub x y) := xysRow _ 0x8 (by omega) x y 0x5
theorem shr (x y : Reg) : Statement (.shr x y) := xysRow _ 0x8 (by omega) x y 0x6
theorem subn (x y : Reg) : Statement (.subn x y) := xysRow _ 0x8 (by omega) x y 0x7
theorem shl (x y : Reg) : Statement (.shl x y) := xysRow _ 0x8 (by omega) x y 0xE
theorem sneReg (x y : Reg) : Statement (.sneReg x y) := xysRow _ 0x9 (by omega) x y 0x0
theorem ldI (nnn : Addr) : Statement (.ldI nnn) := nnnRow _ 0xA (by omega) nnn
theorem jpV0 (nnn : Addr) : Statement (.jpV0 nnn) := nnnRow _ 0xB (by omega) nnn
theorem rnd (x : Reg) (kk : Byte) : Statement (.rnd x kk) := xkkRow _ 0xC (by omega) x kk
theorem drw (x y : Reg) (n : Fin 16) : Statement (.drw x y n) := xynRow _ 0xD (by omega) x y n
theorem skp (x : Reg) : Statement (.skp x) := xsRow _ 0xE (by omega) x 0x9E
theorem sknp (x : Reg) : Statement (.sknp x) := xsRow _ 0xE (by omega) x 0xA1
theorem ldVxDt (x : Reg) : Statement (.ldVxDt x) := xsRow _ 0xF (by omega) x 0x07
theorem ldVxK (x : Reg) : Statement (.ldVxK x) := xsRow _ 0xF (by omega) x 0x0A
theorem ldDt (x : Reg) : Statement (.ldDt x) := xsRow _ 0xF (by omega) x 0x15
theorem ldSt (x : Reg) : Statement (.ldSt x) := xsRow _ 0xF (by omega) x 0x18
theorem addI (x : Reg) : Statement (.addI x) := xsRow _ 0xF (by omega) x 0x1E
theorem ldF (x : Reg) : Statement (.ldF x) := xsRow _ 0xF (by omega) x 0x29
theorem ldB (x : Reg) : Statement (.ldB x) := xsRow _ 0xF (by omega) x 0x33
theorem storeRegs (x : Reg) : Statement (.storeRegs x) := xsRow _ 0xF (by omega) x 0x55
theorem loadRegs (x : Reg) : Statement (.loadRegs x) := xsRow _ 0xF (by omega) x 0x65
theorem unknown (w : Word) : Statement (.unknown w) := fun h => h

end Sys2Proof.Laws.EncodesInRow
end

