-- ==== Sys2Proof/Tests/Slice0.lean ====
section
/-! SUPPORT. The model's own tests. Every expected result is one of the spec's (the encodings of 30_encoding.md R86, the
vectors of 95_test_vectors.md, named in each comment) or is computed by hand from the rule cited. Then, for each
statement of Certificates/Slice0/Obligations.lean that has hypotheses, a witness that meets them. -/

namespace Sys2Proof.Tests

open Sys2Proof Sys2Proof.Machine

/-! ### Decoding: one word per constructor, written out from the bit strings of R86 -/

theorem test_decode_cls : decodeWord 0b0000000011100000 = .cls := by decide
theorem test_decode_ret : decodeWord 0b0000000011101110 = .ret := by decide
theorem test_decode_jp : decodeWord 0b0001001000110100 = .jp 0x234 := by decide
theorem test_decode_call : decodeWord 0b0010010000000000 = .call 0x400 := by decide
theorem test_decode_seImm : decodeWord 0b0011001100000101 = .seImm 3 0x05 := by decide
theorem test_decode_sneImm : decodeWord 0b0100101011110000 = .sneImm 0xA 0xF0 := by decide
theorem test_decode_seReg : decodeWord 0b0101000100100000 = .seReg 1 2 := by decide
theorem test_decode_ldImm : decodeWord 0b0110101010011101 = .ldImm 0xA 0x9D := by decide
theorem test_decode_addImm : decodeWord 0b0111000011111111 = .addImm 0 0xFF := by decide
theorem test_decode_ldReg : decodeWord 0b1000000100100000 = .ldReg 1 2 := by decide
theorem test_decode_orReg : decodeWord 0b1000000100100001 = .orReg 1 2 := by decide
theorem test_decode_andReg : decodeWord 0b1000000100100010 = .andReg 1 2 := by decide
theorem test_decode_xorReg : decodeWord 0b1000000100100011 = .xorReg 1 2 := by decide
theorem test_decode_addReg : decodeWord 0b1000111100010100 = .addReg 0xF 1 := by decide
theorem test_decode_sub : decodeWord 0b1000000100100101 = .sub 1 2 := by decide
theorem test_decode_shr : decodeWord 0b1000000100100110 = .shr 1 2 := by decide
theorem test_decode_subn : decodeWord 0b1000000100100111 = .subn 1 2 := by decide
theorem test_decode_shl : decodeWord 0b1000000100101110 = .shl 1 2 := by decide
theorem test_decode_sneReg : decodeWord 0b1001000100100000 = .sneReg 1 2 := by decide
theorem test_decode_ldI : decodeWord 0b1010001100000000 = .ldI 0x300 := by decide
theorem test_decode_jpV0 : decodeWord 0b1011111111111111 = .jpV0 0xFFF := by decide
theorem test_decode_rnd : decodeWord 0b1100001100001111 = .rnd 3 0x0F := by decide
theorem test_decode_drw : decodeWord 0b1101111000010101 = .drw 0xE 1 5 := by decide
theorem test_decode_skp : decodeWord 0b1110010110011110 = .skp 5 := by decide
theorem test_decode_sknp : decodeWord 0b1110010110100001 = .sknp 5 := by decide
theorem test_decode_ldVxDt : decodeWord 0b1111001000000111 = .ldVxDt 2 := by decide
theorem test_decode_ldVxK : decodeWord 0b1111001100001010 = .ldVxK 3 := by decide
theorem test_decode_ldDt : decodeWord 0b1111000000010101 = .ldDt 0 := by decide
theorem test_decode_ldSt : decodeWord 0b1111111100011000 = .ldSt 0xF := by decide
theorem test_decode_addI : decodeWord 0b1111000000011110 = .addI 0 := by decide
theorem test_decode_ldF : decodeWord 0b1111001000101001 = .ldF 2 := by decide
theorem test_decode_ldB : decodeWord 0b1111000100110011 = .ldB 1 := by decide
theorem test_decode_storeRegs : decodeWord 0b1111001101010101 = .storeRegs 3 := by decide
theorem test_decode_loadRegs : decodeWord 0b1111001101100101 = .loadRegs 3 := by decide
theorem test_decode_unknown : decodeWord 0b0101000100100001 = .unknown 0x5121 := by decide

/-- R87: words of families 0, 8, E and F that match no row (vectors L2-ENG-1, L2-ENG-2, L2-ALU-36, L2-KEY-10). -/
theorem test_decode_unknown_families : decodeWord 0x0123 = .unknown 0x0123 ∧ decodeWord 0x8128 = .unknown 0x8128 ∧
    decodeWord 0xE09F = .unknown 0xE09F ∧ decodeWord 0xF030 = .unknown 0xF030 := by decide

/-- R80: one byte is no instruction. -/
theorem test_decode_truncated : decodeBytes [0x12] = .error .truncated := by decide

/-- R57: the first byte is the high one, and the bytes after the word are left. -/
theorem test_decode_bytes : decodeBytes [0x24, 0x00, 0x77] = .ok (.call 0x400, [0x77]) := by decide

/-- The host's numbering: bit 0 is the least significant bit of the word. -/
theorem test_decode_table_word : decodeTableWord 16 0xD011 = some (.drw 0 1 1) := by decide

/-- R115: an UNKNOWN term with the word of an instruction is ill-formed. -/
theorem test_wf_refuses_known_word : Instr.wf (.unknown 0x00E0) = false := by decide

/-- R115: an UNKNOWN term with an unknown word is well-formed. -/
theorem test_wf_accepts_unknown_word : Instr.wf (.unknown 0x5121) = true := by decide

/-! ### One step on small states -/

/-- Registers set before a test. -/
def withRegs (l : List (Reg × Byte)) (s : State) : State := l.foldl (fun t p => t.setV p.1 p.2) s

/-- One host step on a word put at pc. -/
def after (w : Nat) (s : State) : State := (s.withFetchWord 16 w).stepOp

/-- Memory, I and registers set before a test. -/
def withData (a : Nat) (bytes : List Byte) (l : List (Reg × Byte)) : State :=
  withRegs l { State.reset with mem := State.reset.mem.writeBytes a bytes, I := BitVec.ofNat 16 a }

/-- L1-2. -/
theorem test_seImm : (after 0x3305 (withRegs [(3, 5)] .reset)).pc = 0x204 ∧
    (after 0x3306 (withRegs [(3, 5)] .reset)).pc = 0x202 := by decide

/-- L2-SKIP-1 and L2-SKIP-2. -/
theorem test_sneImm : (after 0x4000 .reset).pc = 0x202 ∧ (after 0x4001 .reset).pc = 0x204 := by decide

/-- L2-SKIP-4 and L2-SKIP-5. -/
theorem test_seReg : (after 0x5120 (withRegs [(1, 1), (2, 2)] .reset)).pc = 0x202 ∧
    (after 0x5110 .reset).pc = 0x204 := by decide

/-- L2-SKIP-6 and L2-SKIP-7. -/
theorem test_sneReg : (after 0x9120 (withRegs [(1, 1), (2, 2)] .reset)).pc = 0x204 ∧
    (after 0x9110 .reset).pc = 0x202 := by decide

/-- L2-ALU-1. -/
theorem test_ldImm : (after 0x6A9D .reset).V[10] = 0x9D := by decide

/-- L2-ALU-3: the carry out is discarded and VF stays. -/
theorem test_addImm_wraps : let t := after 0x7002 (withRegs [(0, 0xFF), (15, 0x55)] .reset)
    t.V[0] = 0x01 ∧ t.V[15] = 0x55 := by decide

/-- L2-ALU-4 to L2-ALU-7. -/
theorem test_register_logic : (after 0x8120 (withRegs [(2, 0x33)] .reset)).V[1] = 0x33 ∧
    (after 0x8121 (withRegs [(1, 0xF0), (2, 0x0F)] .reset)).V[1] = 0xFF ∧
    (after 0x8122 (withRegs [(1, 0xF0), (2, 0x3C)] .reset)).V[1] = 0x30 ∧
    (after 0x8123 (withRegs [(1, 0xF0), (2, 0x3C)] .reset)).V[1] = 0xCC := by decide

/-- L1-3. -/
theorem test_addReg_carry : let t := after 0x8124 (withRegs [(1, 250), (2, 10)] .reset)
    t.V[1] = 4 ∧ t.V[15] = 1 ∧ t.pc = 0x202 := by decide

/-- L2-ALU-12 and L2-ALU-13: an operand or the destination is VF. -/
theorem test_addReg_vf : (after 0x8F14 (withRegs [(15, 200), (1, 100)] .reset)).V[15] = 44 ∧
    (after 0x81F4 (withRegs [(1, 10), (15, 250)] .reset)).V[1] = 4 := by decide

/-- L1-4 and L2-ALU-15, under both values of VF_ALIAS_READ. -/
theorem test_sub : ∀ m, (subUnder m 1 2 (withRegs [(1, 5), (2, 10)] .reset)).V[1] = 251 ∧
    (subUnder m 1 2 (withRegs [(1, 7), (2, 7), (15, 1)] .reset)).V[15] = 0 := by
  intro m; cases m <;> decide

/-- L2-ALU-16 and L2-ALU-17. -/
theorem test_sub_vf : (subUnder .afterFlag 15 1 (withRegs [(15, 10), (1, 3)] .reset)).V[15] = 254 ∧
    (subUnder .latched 15 1 (withRegs [(15, 10), (1, 3)] .reset)).V[15] = 7 ∧
    (subUnder .afterFlag 1 15 (withRegs [(1, 10), (15, 3)] .reset)).V[1] = 9 ∧
    (subUnder .latched 1 15 (withRegs [(1, 10), (15, 3)] .reset)).V[1] = 7 := by decide

/-- L2-ALU-21, under both values of VF_ALIAS_READ. -/
theorem test_shr : ∀ m, let t := shrUnder m 1 (withRegs [(1, 3), (2, 0xAA)] .reset)
    t.V[1] = 1 ∧ t.V[15] = 1 := by
  intro m; cases m <;> decide

/-- L2-ALU-22. -/
theorem test_shr_vf : (shrUnder .afterFlag 15 (withRegs [(15, 5)] .reset)).V[15] = 0 ∧
    (shrUnder .latched 15 (withRegs [(15, 5)] .reset)).V[15] = 2 := by decide

/-- L2-ALU-23 and L2-ALU-24, under both values of VF_ALIAS_READ. -/
theorem test_subn : ∀ m, (subnUnder m 1 2 (withRegs [(1, 5), (2, 10)] .reset)).V[15] = 1 ∧
    (subnUnder m 1 2 (withRegs [(1, 10), (2, 5)] .reset)).V[1] = 251 := by
  intro m; cases m <;> decide

/-- L2-ALU-26 and L2-ALU-27. -/
theorem test_subn_vf : (subnUnder .afterFlag 15 1 (withRegs [(15, 3), (1, 10)] .reset)).V[15] = 9 ∧
    (subnUnder .latched 15 1 (withRegs [(15, 3), (1, 10)] .reset)).V[15] = 7 ∧
    (subnUnder .afterFlag 1 15 (withRegs [(1, 3), (15, 10)] .reset)).V[1] = 254 := by decide

/-- L2-ALU-28, under both values of VF_ALIAS_READ. -/
theorem test_shl : ∀ m, let t := shlUnder m 1 (withRegs [(1, 0x81)] .reset)
    t.V[1] = 2 ∧ t.V[15] = 1 := by
  intro m; cases m <;> decide

/-- L2-ALU-31 and L2-ALU-32. -/
theorem test_shl_vf : (shlUnder .afterFlag 15 (withRegs [(15, 0xC0)] .reset)).V[15] = 2 ∧
    (shlUnder .latched 15 (withRegs [(15, 0xC0)] .reset)).V[15] = 0x80 ∧
    (shlUnder .afterFlag 15 (withRegs [(15, 0x40)] .reset)).V[15] = 0 := by decide

/-- L2-ALU-33 and L2-ALU-35. -/
theorem test_rnd : (rndWith 0xA7 3 0x0F .reset).V[3] = 0x07 ∧ (rndWith 0xA7 3 0xFF .reset).V[3] = 0xA7 := by decide

/-- L2-CTL-1. -/
theorem test_jp : (after 0x1234 .reset).pc = 0x234 := by decide

/-- L2-CTL-7. -/
theorem test_jpV0_no_wrap : (after 0xBFFF (withRegs [(0, 0xFF)] .reset)).pc = 0x10FE := by decide

/-- L1-6, step 1. -/
theorem test_call : let t := after 0x2400 .reset
    t.stack[0] = 0x200 ∧ t.sp = 1 ∧ t.pc = 0x400 := by decide

/-- L2-CTL-5. -/
theorem test_call_overflow : let t := after 0x2300 { State.reset with sp := 16 }
    t.fault = some ⟨.stackOverflow, 16, 0x200⟩ ∧ t.pc = 0x200 := by decide

/-- L1-6, step 2: the entry stays. -/
theorem test_ret : let t := after 0x00EE (after 0x2400 .reset)
    t.sp = 0 ∧ t.pc = 0x202 ∧ t.stack[0] = 0x200 := by decide

/-- L2-CTL-4: no tick. -/
theorem test_ret_underflow : let t := after 0x00EE { State.reset with dt := 5 }
    t.fault = some ⟨.stackUnderflow, 0, 0x200⟩ ∧ t.dt = 5 ∧ t.pc = 0x200 := by decide

/-- L2-KEY-1 and L2-KEY-5. -/
theorem test_skp : (after 0xE59E (withRegs [(5, 10)] (State.reset.setKey 10 true))).pc = 0x204 ∧
    (after 0xE59E (withRegs [(5, 16)] .reset)).fault = some ⟨.keyRange, 16, 0x200⟩ := by decide

/-- L2-KEY-3 and L2-KEY-4. -/
theorem test_sknp : (after 0xE5A1 (withRegs [(5, 10)] .reset)).pc = 0x204 ∧
    (after 0xE5A1 (withRegs [(5, 10)] (State.reset.setKey 10 true))).pc = 0x202 := by decide

/-- L2-KEY-7. -/
theorem test_ldVxK_lowest : let t := after 0xF30A ((State.reset.setKey 9 true).setKey 3 true)
    t.V[3] = 3 ∧ t.pc = 0x202 ∧ t.key[3] = true := by decide

/-- L2-KEY-8. -/
theorem test_ldVxK_waits : let t := after 0xF30A { State.reset with dt := 2 }
    t.pc = 0x200 ∧ t.V[3] = 0 ∧ t.dt = 1 := by decide

/-- L2-MEM-1. -/
theorem test_ldI : (after 0xA300 .reset).I = 0x300 := by decide

/-- L2-MEM-4 and L2-MEM-5: no mask. -/
theorem test_ldF : (after 0xF229 (withRegs [(2, 0x10)] .reset)).I = 0x050 ∧
    (after 0xF229 (withRegs [(2, 0xFF)] .reset)).I = 0x4FB := by decide

/-- L2-MEM-7. -/
theorem test_addI_wraps : let t := after 0xF01E (withRegs [(0, 1), (15, 0x33)] { State.reset with I := 0xFFFF })
    t.I = 0 ∧ t.V[15] = 0x33 := by decide

/-- L1-9. -/
theorem test_ldB : (after 0xF133 (withRegs [(1, 157)] { State.reset with I := 0x300 })).mem.readBytes 0x300 3 =
    [1, 5, 7] := by decide

/-- L2-MEM-11 and L2-MEM-12. -/
theorem test_ldB_faults :
    (after 0xF133 (withRegs [(1, 157)] { State.reset with I := 0x1FF })).fault = some ⟨.protectedWrite, 0x1FF, 0x200⟩ ∧
    (after 0xF133 (withRegs [(1, 157)] { State.reset with I := 0xFFE })).fault =
      some ⟨.dataRange, 0x1000, 0x200⟩ := by decide

/-- The example of R196. -/
theorem test_storeRegs : let t := after 0xF355 (withRegs [(0, 1), (1, 2), (2, 3), (3, 4), (4, 5)]
    { State.reset with I := 0x300 })
    t.mem.readBytes 0x300 5 = [1, 2, 3, 4, 0] ∧ t.I = 0x300 := by decide

/-- L2-MEM-17: nothing is written, the addresses from 0x200 on included. -/
theorem test_storeRegs_protected : let t := after 0xF355 (withRegs [(2, 7)] { State.reset with I := 0x1FE })
    t.fault = some ⟨.protectedWrite, 0x1FE, 0x200⟩ ∧ t.mem.readBytes 0x200 2 = [0xF3, 0x55] := by decide

/-- The example of R197; V4 is beyond the block. -/
theorem test_loadRegs : let t := after 0xF365 (withData 0x300 [1, 2, 3, 4, 5] [(4, 9)])
    t.V[0] = 1 ∧ t.V[3] = 4 ∧ t.V[4] = 9 ∧ t.I = 0x300 := by decide

/-- L2-MEM-19. -/
theorem test_loadRegs_range : let t := after 0xF165 (withRegs [(0, 7)] { State.reset with I := 0xFFF })
    t.fault = some ⟨.dataRange, 0x1000, 0x200⟩ ∧ t.V[0] = 7 := by decide

/-- L2-TMR-1. -/
theorem test_ldVxDt : let t := after 0xF207 { State.reset with dt := 3 }
    t.V[2] = 3 ∧ t.dt = 2 := by decide

/-- L2-TMR-2 and L2-TMR-4. -/
theorem test_ldDt : (after 0xF015 (withRegs [(0, 3)] .reset)).dt = 2 ∧
    (after 0xF015 { State.reset with dt := 9 }).dt = 0 := by decide

/-- L2-TMR-6. -/
theorem test_ldSt : (after 0xF018 (withRegs [(0, 2)] .reset)).st = 1 := by decide

/-- L2-TMR-7: the unknown path ticks and emits its event. -/
theorem test_unknown : let t := after 0x0000 { State.reset with dt := 2 }
    t.dt = 1 ∧ t.st = 0 ∧ t.pc = 0x202 ∧ t.diag = [⟨0x200, 0x0000⟩] := by decide

/-- L2-DRW-8. -/
theorem test_cls : let t := after 0x00E0 { State.reset with fb := State.reset.fb.set 5 true }
    t.fb[5] = false ∧ t.redraw = true := by decide +kernel

/-- L1-8: the row wraps at the right edge. -/
theorem test_drw_wraps : let t := after 0xD011 (withData 0x300 [0xFF] [(0, 60)])
    t.fb[59] = false ∧ t.fb[60] = true ∧ t.fb[63] = true ∧ t.fb[0] = true ∧ t.fb[3] = true ∧ t.fb[4] = false ∧
    t.V[15] = 0 ∧ t.redraw = true := by decide +kernel

/-- L2-DRW-1: the collision flag stays set. -/
theorem test_drw_collides : let s := { withData 0x300 [0x80, 0x80] [] with fb := State.reset.fb.set 0 true }
    let t := after 0xD012 s
    t.fb[0] = false ∧ t.fb[64] = true ∧ t.V[15] = 1 := by decide +kernel

/-- L2-ENG-3 and L2-ENG-5. -/
theorem test_fetch_range : let t := State.stepOp { State.reset with pc := 0xFFF }
    t.fault = some ⟨.fetchRange, 0xFFF, 0xFFF⟩ ∧ t.stepOp.fault = t.fault ∧ t.stepOp.pc = 0xFFF := by decide

/-- L2-ENG-8. -/
theorem test_setKey_ignored : (State.reset.setKey 16 true).key = State.reset.key ∧
    (State.reset.setKey (-1) true).key = State.reset.key := by decide

/-- L2-ENG-9. -/
theorem test_takeRedraw : let r := State.takeRedraw { State.reset with redraw := true }
    r.1 = true ∧ r.2.redraw = false := by decide

/-- L2-ENG-11. -/
theorem test_loadRom : let r := State.loadRom (withRegs [(3, 9)] { State.reset with pc := 0x206 }) [0x12, 0x34]
    r.1 = .ok ∧ r.2.mem.readBytes 0x200 2 = [0x12, 0x34] ∧ r.2.pc = 0x206 ∧ r.2.V[3] = 9 := by decide

/-! ### The canonical form -/

theorem test_reset_memory_wf : State.reset.mem.wf = true := by decide

/-- Writing zero at an address that reads as zero takes the entry out again. -/
theorem test_write_back_is_canonical : (State.reset.mem.write 0x300 7).write 0x300 0 = State.reset.mem := by decide

/-! ### Witnesses: states and operands that meet the hypotheses of each obligation, at the ends of their ranges -/

/-- The reset state with a word at its pc. -/
def holding (w : Nat) : State := State.reset.withFetchWord 16 w

/-- A state that a fault ended. -/
def ended : State := { State.reset with fault := some ⟨.stackUnderflow, 0, 0x200⟩ }

theorem witness_DecoderSelectsTheMatchingRow :
    (∃ r ∈ opcodeRows, (0xE59E : Word) &&& r.mask = r.pattern) ∧
    ∀ r ∈ opcodeRows, (0x5121 : Word) &&& r.mask ≠ r.pattern := by decide

theorem witness_UnknownWordsAreTheListedOnes : ∃ w u, decodeWord w = .unknown u :=
  ⟨0x5121, 0x5121, by decide⟩

theorem witness_DecodeEncodeRoundTrip : Instr.wf (.drw 15 15 15) = true ∧ Instr.wf (.unknown 0xF0FF) = true := by decide

/-- One instruction that completes, at the last fetchable pc, and one that raises a fault. -/
theorem witness_StepRunsTheDecodedInstructionThenTicks :
    (let s : State := { State.reset with pc := 0xFFE }
     s.fault = none ∧ s.pc.toNat ≤ 0xFFE ∧
      decodeBytes [s.mem.read s.pc.toNat, s.mem.read (s.pc.toNat + 1)] = .ok (.unknown 0x0000, []) ∧
      ∃ t, exec (.unknown 0x0000) s = .next t ∧ t.fault = none) ∧
    (let s := holding 0x00EE
     s.fault = none ∧ decodeBytes [s.mem.read s.pc.toNat, s.mem.read (s.pc.toNat + 1)] = .ok (.ret, []) ∧
      ∃ t, exec .ret s = .next t ∧ t.fault ≠ none) :=
  ⟨⟨by decide, by decide, by decide, _, rfl, by decide⟩, by decide, by decide, _, rfl, by decide⟩

theorem witness_FetchIsBigEndianAndBounded :
    (({ State.reset with pc := 0xFFE } : State).pc.toNat ≤ 0xFFE) ∧
    0xFFE < ({ State.reset with pc := 0xFFF } : State).pc.toNat ∧ State.reset.fault = none := by decide

theorem witness_FaultedCoreTakesNoStep :
    ended.fault = some ⟨.stackUnderflow, 0, 0x200⟩ ∧ State.reset.fault = none := by decide

theorem witness_FaultEntryIsPrecise :
    ∃ t, step { State.reset with pc := 0xFFF } = .next t ∧ t.fault = some ⟨.fetchRange, 0xFFF, 0xFFF⟩ :=
  ⟨_, rfl, by decide⟩

theorem witness_FaultsAreRaisedExactlyWhenListed : ∃ t, step (holding 0x00EE) = .next t := ⟨_, rfl⟩

/-- The fault of a word run at 0x200 with a given I. -/
def faultWithI (w : Nat) (i : Word) : Option FaultRecord := (after w { State.reset with I := i }).fault

/-- The last range that fits and the first that does not, for each accessing instruction, and the first address
reported when I itself is above 0xFFF. -/
theorem witness_range_boundaries :
    faultWithI 0xD012 0xFFE = none ∧ faultWithI 0xD012 0xFFF = some ⟨.dataRange, 0x1000, 0x200⟩ ∧
    faultWithI 0xD010 0xFFFF = none ∧ faultWithI 0xF165 0xFFE = none ∧
    faultWithI 0xF165 0x2000 = some ⟨.dataRange, 0x2000, 0x200⟩ := by decide

theorem witness_store_boundaries :
    faultWithI 0xF155 0xFFE = none ∧ faultWithI 0xF155 0xFFF = some ⟨.dataRange, 0x1000, 0x200⟩ ∧
    faultWithI 0xF055 0x1FF = some ⟨.protectedWrite, 0x1FF, 0x200⟩ ∧ faultWithI 0xF033 0xFFD = none := by decide

/-- The premises of the clauses about a timer that is set. -/
theorem witness_TimersCountDownOncePerStep_set :
    ((holding 0xF015).fault = none ∧ fetchWord (holding 0xF015) = some 0xF015 ∧ decodeWord 0xF015 = .ldDt 0) ∧
    (holding 0xF018).fault = none ∧ fetchWord (holding 0xF018) = some 0xF018 ∧ decodeWord 0xF018 = .ldSt 0 := by decide

/-- The reset state with both timers running; its step takes the UNKNOWN path. -/
def ticking : State := { State.reset with dt := 2, st := 2 }

theorem step_ticking : step ticking = .next ticking.stepOp := by
  obtain ⟨t, ht⟩ : ∃ t, step ticking = .next t := ⟨_, rfl⟩
  rw [stepOp_eq ht, ht]

/-- The premises of the clauses about a timer that is not set, for a path of one step. -/
theorem witness_TimersCountDownOncePerStep_path : ∃ σ : Nat → State, (σ 0).dt = 2 ∧ ∀ j < 1,
    step (σ j) = .next (σ (j + 1)) ∧ (σ (j + 1)).fault = none ∧
      ∀ w x, fetchWord (σ j) = some w → decodeWord w ≠ .ldDt x ∧ decodeWord w ≠ .ldSt x := by
  refine ⟨fun j => if j = 0 then ticking else ticking.stepOp, by decide, fun j hj => ?_⟩
  obtain rfl : j = 0 := by omega
  have hw : fetchWord ticking = some 0x0000 := by decide
  have hd : decodeWord 0x0000 = .unknown 0x0000 := by decide
  refine ⟨by simpa using step_ticking, by decide, fun w x h => ?_⟩
  obtain rfl : (0x0000 : Word) = w := Option.some.inj (hw.symm.trans h)
  rw [hd]
  exact ⟨nofun, nofun⟩

theorem witness_KeyWaitRunsForeverWhileNoKeyIsPressed :
    (holding 0xF30A).fault = none ∧ fetchWord (holding 0xF30A) = some 0xF30A ∧ decodeWord 0xF30A = .ldVxK 3 ∧
    ∀ j : Fin 16, (holding 0xF30A).key[j] = false := by decide

theorem witness_CallPushesItsOwnAddress :
    ({ State.reset with sp := 16 } : State).sp.val = 16 ∧ ({ State.reset with sp := 15 } : State).sp.val < 16 := by
  decide

theorem witness_ReturnResumesAfterTheCall :
    State.reset.sp.val = 0 ∧ ({ State.reset with sp := 16 } : State).sp = Fin.succ (15 : Fin 16) := by decide

theorem witness_ReturnUndoesCall : ({ State.reset with sp := 15 } : State).sp.val < 16 ∧
    ∃ t u : State, exec (.call 0x400) { State.reset with sp := 15 } = .next t ∧ u.stack = t.stack ∧ u.sp = t.sp :=
  ⟨by decide, _, _, rfl, rfl, rfl⟩

theorem witness_KeySkipsTestTheKeyNumberedByVx :
    ((withRegs [(5, 16)] State.reset).V[(5 : Reg)]).toNat > 15 ∧
    ((withRegs [(5, 15)] State.reset).V[(5 : Reg)]).toNat = (15 : Fin 16).val := by decide

theorem witness_KeyWaitTakesTheLowestPressedKey :
    (let s := State.reset.setKey 15 true
     s.key[(15 : Fin 16)] = true ∧ ∀ j : Fin 16, j < 15 → s.key[j] = false) ∧
    ∀ k : Fin 16, State.reset.key[k] = false := by decide

theorem witness_TimerTransfersComeBeforeTheTick :
    (holding 0xF207).fault = none ∧ fetchWord (holding 0xF207) = some 0xF207 ∧ decodeWord 0xF207 = .ldVxDt 2 ∧
    decodeWord 0xF015 = .ldDt 0 ∧ decodeWord 0xF018 = .ldSt 0 := by decide

/-- The reset state with a given I. -/
def withI (i : Word) : State := { State.reset with I := i }

/-- The lowest and the highest I of each clause. -/
theorem witness_BcdStoresThreeDigits :
    (0x200 ≤ (withI 0x200).I.toNat ∧ (withI 0x200).I.toNat + 2 ≤ 0xFFF) ∧
    (0x200 ≤ (withI 0xFFD).I.toNat ∧ (withI 0xFFD).I.toNat + 2 ≤ 0xFFF) ∧
    (withI 0x1FF).I.toNat < 0x200 ∧ (withI 0xFFE).I.toNat + 2 > 0xFFF := by decide

theorem witness_BlockStoreWritesRegistersThroughX :
    (0x200 ≤ (withI 0xFF0).I.toNat ∧ (withI 0xFF0).I.toNat + (15 : Reg).val ≤ 0xFFF) ∧
    (withI 0x1FF).I.toNat < 0x200 ∧ (withI 0xFF1).I.toNat + (15 : Reg).val > 0xFFF := by decide

theorem witness_BlockLoadReadsRegistersThroughX :
    (withI 0x000).I.toNat + (15 : Reg).val ≤ 0xFFF ∧ (withI 0xFF0).I.toNat + (15 : Reg).val ≤ 0xFFF ∧
    (withI 0xFFF).I.toNat + (1 : Reg).val > 0xFFF := by decide

theorem witness_BlockLoadRestoresABlockStore :
    let s : State := { State.reset with I := 0xFF0 }
    0x200 ≤ s.I.toNat ∧ s.I.toNat + (15 : Reg).val ≤ 0xFFF ∧
      ∃ t u : State, exec (.storeRegs 15) s = .next t ∧ u.mem = t.mem ∧ u.I = s.I :=
  ⟨by decide, by decide, _, _, rfl, rfl, rfl⟩

/-- The lowest and the highest store of each kind, the longest load, and the last word of memory fetched after them. -/
theorem witness_StoreIsSeenByTheNextFetch :
    (0x200 ≤ (withI 0x200).I.toNat ∧ (withI 0x200).I.toNat + 2 ≤ 0xFFF) ∧
    (0x200 ≤ (withI 0xFFD).I.toNat ∧ (withI 0xFFD).I.toNat + 2 ≤ 0xFFF) ∧
    (0x200 ≤ (withI 0xFF0).I.toNat ∧ (withI 0xFF0).I.toNat + (15 : Reg).val ≤ 0xFFF) ∧
    (0x200 ≤ (withI 0xFFF).I.toNat ∧ (withI 0xFFF).I.toNat + (0 : Reg).val ≤ 0xFFF) ∧
    (List.replicate 3584 (0 : Byte)).length ≤ 3584 ∧
    ∀ m : Memory, ∃ u : State, u.mem = m ∧ u.pc.toNat = 0xFFE :=
  ⟨by decide, by decide, by decide, by decide, by rw [List.length_replicate],
    fun m => ⟨{ State.reset with mem := m, pc := 0xFFE }, rfl, rfl⟩⟩

/-- The empty sprite, the last one that fits, and the first that does not. -/
theorem witness_DrawXorsTheSpriteAndReportsCollision :
    ((0 : Fin 16).val = 0 ∨ (withI 0xFFFF).I.toNat + (0 : Fin 16).val ≤ 0x1000) ∧
    ((15 : Fin 16).val = 0 ∨ (withI 0xFF1).I.toNat + (15 : Fin 16).val ≤ 0x1000) ∧
    (15 : Fin 16).val ≠ 0 ∧ (withI 0xFF2).I.toNat + (15 : Fin 16).val > 0x1000 := by decide

/-- A set bit of a sprite on a set pixel, and a blank screen, on which none is. -/
theorem witness_DrawXorsTheSpriteAndReportsCollision_collision :
    (let s : State := { withData 0x300 [0x80] [] with fb := State.reset.fb.set 0 true }
     (s.mem.read (s.I.toNat + 0)).getLsbD (7 - 0) = true ∧ (0 : Fin Config.fbSize).val = 0 % 32 * 64 + 0 % 64 ∧
      s.fb[(0 : Fin Config.fbSize)] = true) ∧
    ∀ k : Fin Config.fbSize, State.reset.fb[k] = false :=
  ⟨by decide, fun k => by simp [State.reset]⟩

theorem witness_DrawingTwiceErasesTheSprite :
    let s := withData 0x300 [0x80] []
    (s.I.toNat + (1 : Fin 16).val ≤ 0x1000) ∧ ∃ t u : State, exec (.drw 0 1 1) s = .next t ∧
      u.fb = t.fb ∧ u.mem = s.mem ∧ u.I = s.I ∧ (u.V[(0 : Reg)]).toNat % 64 = (s.V[(0 : Reg)]).toNat % 64 ∧
      (u.V[(1 : Reg)]).toNat % 32 = (s.V[(1 : Reg)]).toNat % 32 :=
  ⟨by decide, _, { withData 0x300 [0x80] [] with fb := _ }, rfl, rfl, rfl, rfl, rfl, rfl⟩

theorem witness_UnknownWordEmitsOneDiagnosticAndAdvances :
    State.reset.fault = none ∧ fetchWord State.reset = some 0x0000 ∧ decodeWord 0x0000 = .unknown 0x0000 := by decide

/-- Each component changed by one of its writers. -/
theorem witness_EachComponentHasItsWriters :
    (∃ t, exec (.ldI 0x300) State.reset = .next t ∧ t.I ≠ State.reset.I) ∧
    (∃ t, exec (.call 0x400) State.reset = .next t ∧ t.stack ≠ State.reset.stack ∧ t.sp ≠ State.reset.sp) ∧
    (∃ t, exec .ret State.reset = .next t ∧ t.fault ≠ State.reset.fault) ∧
    (∃ t, exec .cls State.reset = .next t ∧ t.redraw ≠ State.reset.redraw) ∧
    ∃ t, exec (.unknown 0x0000) State.reset = .next t ∧ t.diag ≠ State.reset.diag :=
  ⟨⟨_, rfl, by decide⟩, ⟨_, rfl, by decide, by decide⟩, ⟨_, rfl, by decide⟩, ⟨_, rfl, by decide⟩, _, rfl, by decide⟩

theorem witness_EachGeneralRegisterHasItsWriters :
    ∃ t, exec (.ldImm 15 7) State.reset = .next t ∧ t.V[(15 : Reg)] ≠ State.reset.V[(15 : Reg)] :=
  ⟨_, rfl, by decide⟩

theorem witness_KeypadIsReadByKeyInstructionsAlone :
    (∀ x, Instr.cls ≠ .skp x ∧ Instr.cls ≠ .sknp x ∧ Instr.cls ≠ .ldVxK x) ∧ ∃ t, exec .cls State.reset = .next t :=
  ⟨by decide, _, rfl⟩

theorem witness_OutputsAreNeverReadByAnInstruction : ∃ t, exec (.ldSt 3) State.reset = .next t := ⟨_, rfl⟩

/-- A state at the invariant's largest pc, with a full stack of its largest entry. -/
def atBounds : State :=
  { State.reset with pc := 0x10FE, sp := 16, stack := Vector.replicate 16 0xFFE, mem := [(0x200, 1), (0xFFF, 2)] }

theorem atBounds_inv : atBounds.Inv where
  memWf := by decide
  lowClear := by decide
  pcBound := by decide
  stackBound := by unfold State.stackBounded; decide

theorem witness_StepKeepsTheInvariant :
    State.Inv { atBounds with pc := 0xFFE } ∧ ∃ t, step { atBounds with pc := 0xFFE } = .next t :=
  ⟨{ atBounds_inv with pcBound := by decide }, _, rfl⟩

theorem witness_HostOperationsKeepTheInvariant : atBounds.Inv := atBounds_inv

theorem witness_ReachableStatesAreBounded : Reachable State.reset ∧ (0x1FF : Nat) < 0x200 :=
  ⟨.reset, by decide⟩

/-- The longest image that loads and the shortest that does not. -/
theorem witness_LoadRomCopiesOrFailsUnchanged :
    (List.replicate 3585 (0 : Byte)).length > 3584 ∧ (List.replicate 3584 (0 : Byte)).length ≤ 3584 := by
  simp only [List.length_replicate]; decide

theorem witness_SetKeyIgnoresIndicesOutsideTheKeypad :
    (∃ k : Fin 16, (15 : Int) = k.val) ∧ (-1 : Int) < 0 ∧ 15 < (16 : Int) := ⟨⟨15, rfl⟩, by decide⟩

/-- A state without a fault and one with. -/
theorem witness_HostReadsReturnTheirComponent :
    State.reset.fault = none ∧ ended.fault = some ⟨.stackUnderflow, 0, 0x200⟩ := by decide

theorem witness_NoOperationClearsAFault : ended.fault = some ⟨.stackUnderflow, 0, 0x200⟩ := by decide

end Sys2Proof.Tests
end

section
/-! SUPPORT. One normal form for all instructions: `exec` is a check that may fail, and an effect on a state that
passes it. What an instruction reads and what it writes is then said of the two apart. -/

namespace Sys2Proof.Machine

/-! ### The normal form -/

/-- The check of an instruction and the fault it then raises (60_exceptions.md R240); most instructions have none. -/
def instrFailure (i : Instr) (s : State) : Option Raise :=
  match i with
  | .call _ => if s.sp.val = 16 then some (.stackOverflow, s.sp.val) else none
  | .ret => if s.sp.val = 0 then some (.stackUnderflow, s.sp.val) else none
  | .drw _ _ n => firstFailure readCheck (s.dataAddr 0) n.val
  | .skp x | .sknp x => keyCheck (s.v x)
  | .ldB _ => firstFailure writeCheck (s.dataAddr 0) 3
  | .storeRegs x => firstFailure writeCheck (s.dataAddr 0) (x.val + 1)
  | .loadRegs x => firstFailure readCheck (s.dataAddr 0) (x.val + 1)
  | _ => none

/-- What an instruction does to a state that passes its check. Total: 2nnn at sp = 16 and 00EE at sp = 0, which the
check excludes, are given the nearest sp here. -/
def instrEffect (i : Instr) (s : State) : State :=
  match i with
  | .cls => ({ s with fb := Vector.replicate Config.fbSize false, redraw := true } : State).advance 2
  | .ret =>
    { s with
      sp := ⟨s.sp.val - 1, by omega⟩
      pc := s.stack[s.sp.val - 1]'(by simp only [Config.stackDepth]; omega) + 2 }
  | .jp nnn => s.jump (addr16 nnn)
  | .call nnn =>
    { s with
      stack := s.stack.setIfInBounds s.sp.val s.pc
      sp := ⟨min (s.sp.val + 1) 16, by omega⟩
      pc := addr16 nnn }
  | .seImm x kk => s.skipIf (s.v x == kk)
  | .sneImm x kk => s.skipIf (s.v x != kk)
  | .seReg x y => s.skipIf (s.v x == s.v y)
  | .sneReg x y => s.skipIf (s.v x != s.v y)
  | .ldImm x kk => (s.setV x kk).advance 2
  | .addImm x kk => (s.setV x (s.v x + kk)).advance 2
  | .ldReg x y => (s.setV x (s.v y)).advance 2
  | .orReg x y => (s.setV x (s.v x ||| s.v y)).advance 2
  | .andReg x y => (s.setV x (s.v x &&& s.v y)).advance 2
  | .xorReg x y => (s.setV x (s.v x ^^^ s.v y)).advance 2
  | .addReg x y => (s.flagThenResult .latched x y carry (· + ·)).advance 2
  | .sub x y => (s.flagThenResult Config.vfAliasRead x y notBorrow (· - ·)).advance 2
  | .shr x _ =>
    (s.flagThenResult Config.vfAliasRead x x (fun a _ => shiftedOutRight a) fun a _ => a >>> 1).advance 2
  | .subn x y =>
    (s.flagThenResult Config.vfAliasRead x y (fun a b => notBorrow b a) fun a b => b - a).advance 2
  | .shl x _ =>
    (s.flagThenResult Config.vfAliasRead x x (fun a _ => shiftedOutLeft a) fun a _ => a <<< 1).advance 2
  | .ldI nnn => ({ s with I := addr16 nnn } : State).advance 2
  | .jpV0 nnn => s.jump (addr16 nnn + byte16 (s.v 0))
  | .rnd x kk => rndWith (Config.rnd s.draws) x kk s
  | .drw x y n => s.draw x y n.val
  | .skp x => s.skipIf (s.keyPressed (s.v x).toNat)
  | .sknp x => s.skipIf !(s.keyPressed (s.v x).toNat)
  | .ldVxDt x => (s.setV x s.dt).advance 2
  | .ldVxK x =>
    { s with
      V := s.firstKey.elim s.V fun k => s.V.set x (BitVec.ofNat 8 k)
      pc := s.firstKey.elim s.pc fun _ => s.pc + 2 }
  | .ldDt x => ({ s with dt := s.v x } : State).advance 2
  | .ldSt x => ({ s with st := s.v x } : State).advance 2
  | .addI x => ({ s with I := s.I + byte16 (s.v x) } : State).advance 2
  | .ldF x => ({ s with I := BitVec.ofNat 16 (Config.glyphBytes * (s.v x).toNat) } : State).advance 2
  | .ldB x => ({ s with mem := s.mem.writeBytes (s.dataAddr 0) (bcdDigits (s.v x)) } : State).advance 2
  | .storeRegs x => ({ s with mem := s.mem.writeBytes (s.dataAddr 0) (s.regsThrough x) } : State).advance 2
  | .loadRegs x => (s.loadThrough x).advance 2
  | .unknown w => ({ s with diag := s.diag ++ [⟨s.pc, w⟩] } : State).advance 2

theorem execCall_eq_guarded (nnn : Addr) (s : State) :
    execCall nnn s = guarded (instrFailure (.call nnn) s) s (instrEffect (.call nnn) s) := by
  obtain ⟨hsp, hpush⟩ | ⟨hsp, hpush⟩ := push_cases s s.pc
  · simp [execCall, instrFailure, hpush, hsp]
  · have hne : s.sp.val ≠ 16 := by omega
    simp [execCall, instrFailure, instrEffect, State.jump, Vector.setIfInBounds, Array.setIfInBounds, hpush, hsp, hne]

theorem execRet_eq_guarded (s : State) :
    execRet s = guarded (instrFailure .ret s) s (instrEffect .ret s) := by
  obtain ⟨hsp, hpop⟩ | ⟨hsp, hpop⟩ := pop_cases s
  · simp [execRet, instrFailure, hpop, hsp]
  · have hne : s.sp.val ≠ 0 := by omega
    simp [execRet, instrFailure, instrEffect, State.jump, State.advance, hpop, hne]

theorem execLdVxK_eq (x : Reg) (s : State) : execLdVxK x s = .next (instrEffect (.ldVxK x) s) := by
  cases h : s.firstKey <;> simp [execLdVxK, instrEffect, State.setV, State.advance, h]

/-- Every instruction checks, then has its effect or enters its fault. -/
theorem exec_eq_guarded (i : Instr) (s : State) :
    exec i s = guarded (instrFailure i s) s (instrEffect i s) := by
  cases i with
  | call nnn => exact execCall_eq_guarded nnn s
  | ret => exact execRet_eq_guarded s
  | ldVxK x => exact execLdVxK_eq x s
  | _ => rfl

/-- Everything an instruction can do: enter the fault of its failed check, or have its effect. -/
theorem exec_next {i : Instr} {s t : State} (h : exec i s = .next t) :
    (∃ f, instrFailure i s = some f ∧ t = raise f s) ∨ (instrFailure i s = none ∧ t = instrEffect i s) :=
  guarded_next (exec_eq_guarded i s ▸ h)

end Sys2Proof.Machine
end

section
/-! SUPPORT. The fields of the state after a draw that passes its check (47_display.md R223 to R225). -/

namespace Sys2Proof.Machine

@[simp] theorem draw_mem (s : State) (x y : Reg) (n : Nat) : (s.draw x y n).mem = s.mem := rfl
@[simp] theorem draw_I (s : State) (x y : Reg) (n : Nat) : (s.draw x y n).I = s.I := rfl
@[simp] theorem draw_pc (s : State) (x y : Reg) (n : Nat) : (s.draw x y n).pc = s.pc + 2 := rfl
@[simp] theorem draw_stack (s : State) (x y : Reg) (n : Nat) : (s.draw x y n).stack = s.stack := rfl
@[simp] theorem draw_sp (s : State) (x y : Reg) (n : Nat) : (s.draw x y n).sp = s.sp := rfl
@[simp] theorem draw_dt (s : State) (x y : Reg) (n : Nat) : (s.draw x y n).dt = s.dt := rfl
@[simp] theorem draw_st (s : State) (x y : Reg) (n : Nat) : (s.draw x y n).st = s.st := rfl
@[simp] theorem draw_key (s : State) (x y : Reg) (n : Nat) : (s.draw x y n).key = s.key := rfl
@[simp] theorem draw_redraw (s : State) (x y : Reg) (n : Nat) : (s.draw x y n).redraw = true := rfl
@[simp] theorem draw_fault (s : State) (x y : Reg) (n : Nat) : (s.draw x y n).fault = s.fault := rfl
@[simp] theorem draw_diag (s : State) (x y : Reg) (n : Nat) : (s.draw x y n).diag = s.diag := rfl
@[simp] theorem draw_draws (s : State) (x y : Reg) (n : Nat) : (s.draw x y n).draws = s.draws := rfl

end Sys2Proof.Machine
end

section
/-! PROOFS. Which instructions write which component (10_state.md R25 to R31, R36): an effect changes a component only
if its instruction is one of the listed writers, and a check raises a fault only for the listed faulters. -/

namespace Sys2Proof.Machine

section Writers
variable {i : Instr} {s : State}

theorem writer_of_instrEffect_mem (h : (instrEffect i s).mem ≠ s.mem) : ∃ x, i = .ldB x ∨ i = .storeRegs x := by
  cases i with
  | ldB x => exact ⟨x, .inl rfl⟩
  | storeRegs x => exact ⟨x, .inr rfl⟩
  | _ => simp [instrEffect] at h

theorem writer_of_instrEffect_I (h : (instrEffect i s).I ≠ s.I) :
    (∃ nnn, i = .ldI nnn) ∨ ∃ x, i = .addI x ∨ i = .ldF x := by
  cases i with
  | ldI nnn => exact .inl ⟨nnn, rfl⟩
  | addI x => exact .inr ⟨x, .inl rfl⟩
  | ldF x => exact .inr ⟨x, .inr rfl⟩
  | _ => simp [instrEffect] at h

theorem writer_of_instrEffect_stack (h : (instrEffect i s).stack ≠ s.stack) : ∃ nnn, i = .call nnn := by
  cases i with
  | call nnn => exact ⟨nnn, rfl⟩
  | _ => simp [instrEffect] at h

theorem writer_of_instrEffect_sp (h : (instrEffect i s).sp ≠ s.sp) : i = .ret ∨ ∃ nnn, i = .call nnn := by
  cases i with
  | ret => exact .inl rfl
  | call nnn => exact .inr ⟨nnn, rfl⟩
  | _ => simp [instrEffect] at h

theorem writer_of_instrEffect_dt (h : (instrEffect i s).dt ≠ s.dt) : ∃ x, i = .ldDt x := by
  cases i with
  | ldDt x => exact ⟨x, rfl⟩
  | _ => simp [instrEffect] at h

theorem writer_of_instrEffect_st (h : (instrEffect i s).st ≠ s.st) : ∃ x, i = .ldSt x := by
  cases i with
  | ldSt x => exact ⟨x, rfl⟩
  | _ => simp [instrEffect] at h

theorem writer_of_instrEffect_fb (h : (instrEffect i s).fb ≠ s.fb) : i = .cls ∨ ∃ x y n, i = .drw x y n := by
  cases i with
  | cls => exact .inl rfl
  | drw x y n => exact .inr ⟨x, y, n, rfl⟩
  | _ => simp [instrEffect] at h

theorem writer_of_instrEffect_redraw (h : (instrEffect i s).redraw ≠ s.redraw) :
    (instrEffect i s).redraw = true ∧ (i = .cls ∨ ∃ x y n, i = .drw x y n) := by
  cases i with
  | cls => exact ⟨rfl, .inl rfl⟩
  | drw x y n => exact ⟨rfl, .inr ⟨x, y, n, rfl⟩⟩
  | _ => simp [instrEffect] at h

theorem writer_of_instrEffect_diag (h : (instrEffect i s).diag ≠ s.diag) : ∃ w, i = .unknown w := by
  cases i with
  | unknown w => exact ⟨w, rfl⟩
  | _ => simp [instrEffect] at h

theorem writer_of_instrEffect_draws (h : (instrEffect i s).draws ≠ s.draws) : ∃ x kk, i = .rnd x kk := by
  cases i with
  | rnd x kk => exact ⟨x, kk, rfl⟩
  | _ => simp [instrEffect] at h

@[simp] theorem instrEffect_key (i : Instr) (s : State) : (instrEffect i s).key = s.key := by
  cases i <;> simp [instrEffect]

@[simp] theorem instrEffect_fault (i : Instr) (s : State) : (instrEffect i s).fault = s.fault := by
  cases i <;> simp [instrEffect]

theorem faulter_of_instrFailure {f : Raise} (h : instrFailure i s = some f) :
    i = .ret ∨ (∃ nnn, i = .call nnn) ∨ (∃ x y n, i = .drw x y n) ∨
      ∃ x, i = .skp x ∨ i = .sknp x ∨ i = .ldB x ∨ i = .storeRegs x ∨ i = .loadRegs x := by
  cases i with
  | ret | call | drw | skp | sknp | ldB | storeRegs | loadRegs => simp
  | _ => simp [instrFailure] at h

end Writers

/-- Settles O40: a failed check writes `fault` alone, and an effect has the writers named above. -/
theorem eachComponentHasItsWriters : Obligations.EachComponentHasItsWriters := by
  intro i s t h
  obtain ⟨f, hf, rfl⟩ | ⟨-, rfl⟩ := exec_next h
  · simpa using fun _ => faulter_of_instrFailure hf
  · exact ⟨writer_of_instrEffect_mem, writer_of_instrEffect_I, writer_of_instrEffect_stack, writer_of_instrEffect_sp,
      writer_of_instrEffect_dt, writer_of_instrEffect_st, writer_of_instrEffect_fb, instrEffect_key i s,
      writer_of_instrEffect_redraw, writer_of_instrEffect_diag, writer_of_instrEffect_draws,
      fun h => absurd (instrEffect_fault i s) h⟩

end Sys2Proof.Machine
end

section
/-! PROOFS. Which instructions write which general register (10_state.md R21 to R23). -/

namespace Sys2Proof.Machine

section Registers
variable {s : State} {r : Reg}

theorem reg_of_v_setV_ne {x : Reg} {b : Byte} (h : (s.setV x b).v r ≠ s.v r) : r = x := by
  by_contra hx
  exact h (by rw [v_setV, if_neg hx])

theorem reg_of_v_flagThenResult_ne {mode : VfAliasRead} {x y : Reg} {flag : Byte → Byte → Bool}
    {result : Byte → Byte → Byte} (h : (s.flagThenResult mode x y flag result).v r ≠ s.v r) :
    r = x ∨ r = vf := by
  by_contra hr
  obtain ⟨hx, hvf⟩ := not_or.mp hr
  exact h (by rw [v_flagThenResult]; simp only [if_neg hx, if_neg hvf])

theorem reg_of_v_draw_ne {x y : Reg} {n : Nat} (h : (s.draw x y n).v r ≠ s.v r) : r = vf :=
  reg_of_v_setV_ne h

theorem reg_of_v_loadThrough_ne {x : Reg} (h : (s.loadThrough x).v r ≠ s.v r) : r ≤ x := by
  by_contra hx
  exact h (by rw [v_loadThrough, if_neg hx])

theorem reg_of_v_ldVxK_ne {x : Reg} (h : (instrEffect (.ldVxK x) s).v r ≠ s.v r) : r = x := by
  cases hk : s.firstKey with
  | none => simp [instrEffect, State.v, hk] at h
  | some k => exact reg_of_v_setV_ne (b := BitVec.ofNat 8 k) (by simpa [instrEffect, State.v, hk] using h)

end Registers

/-- Settles O41: an instruction that writes V does it by a register write, a flag-writing operation, a draw, a block load or
the key wait, and each of these tells which registers it can have changed. -/
theorem eachGeneralRegisterHasItsWriters : Obligations.EachGeneralRegisterHasItsWriters := by
  intro i s t r h hne
  obtain ⟨f, -, rfl⟩ | ⟨-, rfl⟩ := exec_next h
  · exact absurd rfl hne
  have hv : (instrEffect i s).v r ≠ s.v r := hne
  cases i with
  | ldImm x _ | addImm x _ | rnd x _ | ldReg x _ | orReg x _ | andReg x _ | xorReg x _ | ldVxDt x =>
    obtain rfl := reg_of_v_setV_ne hv
    simp
  | addReg x _ | sub x _ | shr x _ | subn x _ | shl x _ =>
    simp only [instrEffect, v_advance] at hv
    simpa using reg_of_v_flagThenResult_ne hv
  | drw =>
    obtain rfl := reg_of_v_draw_ne hv
    simp
  | ldVxK x =>
    obtain rfl := reg_of_v_ldVxK_ne hv
    simp
  | loadRegs x =>
    simp only [instrEffect, v_advance] at hv
    simpa using reg_of_v_loadThrough_ne hv
  | _ => exact absurd rfl hv

end Sys2Proof.Machine
end

section
/-! PROOFS. What instructions do not read: the key flags, but for the key instructions, and the outputs st, redraw and
diag (10_state.md R28, R30, R31; 60_exceptions.md R262). -/

namespace Sys2Proof.Machine

/-- The checks read V, I and sp alone. -/
theorem instrFailure_congr {s u : State} (i : Instr) (hV : u.V = s.V) (hI : u.I = s.I) (hsp : u.sp = s.sp) :
    instrFailure i u = instrFailure i s := by
  cases i <;> simp [instrFailure, State.v, State.dataAddr, hV, hI, hsp]

theorem instrEffect_with_key {i : Instr} (hi : ∀ x, i ≠ .skp x ∧ i ≠ .sknp x ∧ i ≠ .ldVxK x) (s : State)
    (keys : Vector Bool 16) :
    instrEffect i { s with key := keys } = { instrEffect i s with key := keys } := by
  cases i with
  | skp x | sknp x | ldVxK x =>
    obtain ⟨hskp, hsknp, hwait⟩ := hi x
    contradiction
  | loadRegs x => simp [instrEffect, State.loadThrough, State.advance, State.v, State.dataAddr]
  | sub | shr | subn | shl => simp only [instrEffect]; cases Config.vfAliasRead <;> rfl
  | _ => rfl

theorem instrEffect_outputs (i : Instr) (s : State) (v : Byte) (b : Bool) (events : List DiagEvent) :
    { instrEffect i { s with st := v, redraw := b, diag := events } with
      st := (instrEffect i s).st, redraw := (instrEffect i s).redraw, diag := (instrEffect i s).diag }
      = instrEffect i s := by
  cases i with
  | loadRegs x => simp [instrEffect, State.loadThrough, State.advance, State.v, State.dataAddr]
  | sub | shr | subn | shl => simp only [instrEffect]; cases Config.vfAliasRead <;> rfl
  | _ => rfl

/-- Settles O43: neither the check nor the effect of such an instruction depends on the key flags. -/
theorem keypadIsReadByKeyInstructionsAlone : Obligations.KeypadIsReadByKeyInstructionsAlone := by
  intro i s t keys hi h
  have hcheck : instrFailure i { s with key := keys } = instrFailure i s := instrFailure_congr i rfl rfl rfl
  rw [exec_eq_guarded, hcheck, instrEffect_with_key hi]
  obtain ⟨f, hf, rfl⟩ | ⟨hf, rfl⟩ := exec_next h
  · rw [hf, guarded_some]; rfl
  · rw [hf, guarded_none]

/-- Settles O44: the check reads none of the three, and no effect lets one of them into another component. -/
theorem outputsAreNeverReadByAnInstruction : Obligations.OutputsAreNeverReadByAnInstruction := by
  intro i s t v b events h
  have hcheck : instrFailure i { s with st := v, redraw := b, diag := events } = instrFailure i s :=
    instrFailure_congr i rfl rfl rfl
  rw [exec_eq_guarded, hcheck]
  obtain ⟨f, hf, rfl⟩ | ⟨hf, rfl⟩ := exec_next h
  · exact ⟨_, by rw [hf, guarded_some], rfl⟩
  · exact ⟨_, by rw [hf, guarded_none], instrEffect_outputs i s v b events⟩

end Sys2Proof.Machine
end

section
/-! PROOFS. A recorded fault under host operations (10_state.md R36, 60_exceptions.md R242). -/

namespace Sys2Proof.Machine

theorem loadRom_fault (s : State) (bytes : List Byte) : (s.loadRom bytes).2.fault = s.fault := by
  unfold State.loadRom
  split <;> rfl

theorem setKey_fault (s : State) (index : Int) (pressed : Bool) : (s.setKey index pressed).fault = s.fault := by
  unfold State.setKey
  split <;> rfl

theorem stepOp_faulted {s : State} {r : FaultRecord} (h : s.fault = some r) : s.stepOp = s := by
  simp [State.stepOp, step_faulted h]

theorem transact_faulted {s : State} {r : FaultRecord} (op : HostOp) (h : s.fault = some r) :
    (transact op s).2.fault = some r := by
  cases op with
  | loadRom bytes => exact (loadRom_fault s bytes).trans h
  | setKey index pressed => exact (setKey_fault s index pressed).trans h
  | step => exact (congrArg State.fault (stepOp_faulted h)).trans h
  | readFramebuffer | takeRedraw | readSoundTimer | readFault => exact h

/-- Settles O52, by induction on the operations. -/
theorem noOperationClearsAFault : Obligations.NoOperationClearsAFault := by
  intro ops
  induction ops with
  | nil => exact fun _ _ h => h
  | cons op ops ih => exact fun s r h => ih (transact op s).2 r (transact_faulted op h)

end Sys2Proof.Machine
end

section
/-! PROOFS. The state after construction (10_state.md R38). -/

namespace Sys2Proof.Machine

theorem unlisted_font (a : Fin 80) : Memory.unlisted a.val = Config.font[a] := by
  simp [Memory.unlisted]

theorem unlisted_above_font {a : Nat} (h : 0x050 ≤ a) : Memory.unlisted a = 0 := by
  simp [Memory.unlisted, h]

@[simp] theorem reset_read (a : Nat) : State.reset.mem.read a = Memory.unlisted a := rfl

/-- Settles O1: empty memory reads as `unlisted` says, and every vector of the reset state is constant. -/
theorem resetHoldsConstructionValues : Obligations.ResetHoldsConstructionValues := by
  refine ⟨unlisted_font, fun a ha _ => unlisted_above_font ha, ?_, rfl, rfl, ?_, rfl, rfl, rfl, ?_, ?_, rfl, rfl⟩
  all_goals exact fun k => by simp [State.reset]

theorem reset_stackBounded : State.reset.stackBounded := fun k => by simp [State.reset]

/-- Settles O45: empty memory is canonical, and the stack holds only zeros. -/
theorem resetMeetsTheInvariant : Obligations.ResetMeetsTheInvariant where
  memWf := rfl
  lowClear := rfl
  pcBound := by decide
  stackBound := reset_stackBounded

end Sys2Proof.Machine
end

section
/-! PROOFS. Memory as the fetch and the stores see it (20_memory.md R51, R52, R54, R58, R62, R65): which bytes a store
leaves as they were, what it put elsewhere, and the word a fetch forms of them. -/

namespace Sys2Proof.Machine

/-! ### The fetch -/

theorem step_fetchRange {s : State} (hf : s.fault = none) (hpc : 0xFFE < s.pc.toNat) :
    step s = .next (raise (fetchRaise s) s) := by
  simp [step, hf, fetchWord_none.mpr hpc]

/-- Settles O9: the two cases of the fetch. -/
theorem fetchIsBigEndianAndBounded : Obligations.FetchIsBigEndianAndBounded :=
  fun _ hf => ⟨fetchWord_some, step_fetchRange hf⟩

theorem fetchWord_of_read_eq {u : State} {m : Memory} {byteAt : Nat → Byte} (hread : ∀ a, m.read a = byteAt a)
    (hmem : u.mem = m) (hpc : u.pc.toNat ≤ 0xFFE) :
    fetchWord u = some (byteAt u.pc.toNat ++ byteAt (u.pc.toNat + 1)) := by
  rw [fetchWord_some hpc, hmem, hread, hread]

/-! ### Memory below 0x200 -/

theorem read_writeBytes_below (m : Memory) {a b : Nat} (vs : List Byte) (h : b < a) :
    (m.writeBytes a vs).read b = m.read b := by
  rw [Memory.read_writeBytes, dif_neg (by omega)]

/-- A store of at least one byte that passes its check starts at 0x200 or above. -/
theorem progBase_le_of_writeCheck {base n : Nat} (h : firstFailure writeCheck base (n + 1) = none) : 0x200 ≤ base := by
  have := firstFailure_write_none.mp h
  omega

theorem instrEffect_read_below {i : Instr} {s : State} {a : Nat} (hcheck : instrFailure i s = none) (ha : a < 0x200) :
    (instrEffect i s).mem.read a = s.mem.read a := by
  cases i with
  | ldB x | storeRegs x =>
    exact read_writeBytes_below _ _ (Nat.lt_of_lt_of_le ha (progBase_le_of_writeCheck hcheck))
  | _ => simp [instrEffect]

theorem exec_read_below {i : Instr} {s t : State} {a : Nat} (h : exec i s = .next t) (ha : a < 0x200) :
    t.mem.read a = s.mem.read a := by
  obtain ⟨f, -, rfl⟩ | ⟨hcheck, rfl⟩ := exec_next h
  · rfl
  · exact instrEffect_read_below hcheck ha

theorem step_read_below {s t : State} {a : Nat} (h : step s = .next t) (ha : a < 0x200) :
    t.mem.read a = s.mem.read a := by
  obtain ⟨-, ⟨-, rfl⟩ | ⟨w, -, hexec⟩⟩ := step_next h
  · rfl
  · obtain ⟨u, hu, hend⟩ := completeStep_next hexec
    have hmem : t.mem = u.mem := by
      obtain ⟨-, rfl⟩ | ⟨-, rfl⟩ := hend
      · exact tick_mem u
      · rfl
    rw [hmem, exec_read_below hu ha]

theorem stepOp_read_below (s : State) {a : Nat} (ha : a < 0x200) : s.stepOp.mem.read a = s.mem.read a := by
  unfold State.stepOp
  split
  · next h => exact step_read_below h ha
  · rfl
  · rfl

theorem loadRom_read_below (s : State) (bytes : List Byte) {a : Nat} (ha : a < 0x200) :
    (s.loadRom bytes).2.mem.read a = s.mem.read a := by
  unfold State.loadRom
  split
  · rfl
  · exact read_writeBytes_below _ _ ha

theorem setKey_mem (s : State) (index : Int) (pressed : Bool) : (s.setKey index pressed).mem = s.mem := by
  unfold State.setKey
  split <;> rfl

/-- Settles O42: only Step and LoadRom write memory, a store at or above 0x200 and a ROM from 0x200 on. -/
theorem noOperationChangesMemoryBelowProgramBase : Obligations.NoOperationChangesMemoryBelowProgramBase := by
  intro op s a ha
  cases op with
  | loadRom bytes => exact loadRom_read_below s bytes ha
  | setKey index pressed => exact congrArg (Memory.read · a) (setKey_mem s index pressed)
  | step => exact stepOp_read_below s ha
  | readFramebuffer | takeRedraw | readSoundTimer | readFault => rfl

/-! ### Memory after a store -/

theorem exec_of_check {i : Instr} {s : State} (h : instrFailure i s = none) : exec i s = .next (instrEffect i s) := by
  rw [exec_eq_guarded, h, guarded_none]

theorem exec_storeRegs_of_range {x : Reg} {s : State} (hlo : 0x200 ≤ s.I.toNat) (hhi : s.I.toNat + x.val ≤ 0xFFF) :
    exec (.storeRegs x) s = .next (instrEffect (.storeRegs x) s) :=
  exec_of_check (firstFailure_write_none.mpr (.inr ⟨hlo, by simp only [State.dataAddr]; omega⟩))

theorem exec_ldB_of_range {x : Reg} {s : State} (hlo : 0x200 ≤ s.I.toNat) (hhi : s.I.toNat + 2 ≤ 0xFFF) :
    exec (.ldB x) s = .next (instrEffect (.ldB x) s) :=
  exec_of_check (firstFailure_write_none.mpr (.inr ⟨hlo, by simp only [State.dataAddr]; omega⟩))

theorem read_storeRegs (x : Reg) (s : State) (a : Nat) :
    (instrEffect (.storeRegs x) s).mem.read a =
      if s.I.toNat ≤ a ∧ a ≤ s.I.toNat + x.val then s.V[(a - s.I.toNat) % 16] else s.mem.read a := by
  simp only [instrEffect, advance_mem, Memory.read_writeBytes, length_regsThrough, getElem_regsThrough,
    State.dataAddr, Nat.add_zero]
  by_cases h : s.I.toNat ≤ a ∧ a ≤ s.I.toNat + x.val
  · have hmod : (a - s.I.toNat) % 16 = a - s.I.toNat := Nat.mod_eq_of_lt (by omega)
    simp only [dif_pos (show s.I.toNat ≤ a ∧ a < s.I.toNat + (x.val + 1) by omega), if_pos h, hmod]
  · rw [dif_neg (by omega), if_neg h]

theorem read_ldB (x : Reg) (s : State) (a : Nat) :
    (instrEffect (.ldB x) s).mem.read a =
      if a = s.I.toNat then BitVec.ofNat 8 ((s.V[x]).toNat / 100)
      else if a = s.I.toNat + 1 then BitVec.ofNat 8 ((s.V[x]).toNat / 10 % 10)
      else if a = s.I.toNat + 2 then BitVec.ofNat 8 ((s.V[x]).toNat % 10)
      else s.mem.read a := by
  simp only [instrEffect, advance_mem, bcdDigits, Memory.writeBytes, Memory.read_write, State.dataAddr, State.v,
    Nat.add_zero]
  by_cases h₀ : a = s.I.toNat
  · rw [if_neg (by omega), if_neg (by omega), if_pos h₀, if_pos h₀]
  by_cases h₁ : a = s.I.toNat + 1
  · simp [h₁]
  · simp [h₀, h₁]

theorem read_loadRom {bytes : List Byte} (s : State) (hlen : bytes.length ≤ 3584) (a : Nat) :
    (s.loadRom bytes).2.mem.read a =
      if h : 0x200 ≤ a ∧ a < 0x200 + bytes.length then bytes[a - 0x200]'(by omega) else s.mem.read a := by
  rw [State.loadRom, if_neg (by simpa using hlen)]
  exact Memory.read_writeBytes s.mem 0x200 bytes a

/-- Settles O35: each store in range takes place, and a fetch reads memory byte by byte as it then stands. -/
theorem storeIsSeenByTheNextFetch : Obligations.StoreIsSeenByTheNextFetch := by
  refine ⟨?_, ?_, ?_⟩
  · intro x s hlo hhi after
    exact ⟨_, exec_storeRegs_of_range hlo hhi, fun _ => fetchWord_of_read_eq (byteAt := after) (read_storeRegs x s)⟩
  · intro x s hlo hhi after
    exact ⟨_, exec_ldB_of_range hlo hhi, fun _ => fetchWord_of_read_eq (byteAt := after) (read_ldB x s)⟩
  · intro bytes s u hlen after
    exact fetchWord_of_read_eq (byteAt := after) (read_loadRom s hlen)

end Sys2Proof.Machine
end

section
/-! SUPPORT. The decoder against the encoder (30_encoding.md R82, R85, R86): a word is built again from its fields, so
encoding what a word decodes to gives that word back. -/

namespace Sys2Proof

/-! ### A word from its fields, format by format -/

theorem encodeNNN_fields {w : Word} {op : Nat} (h : (fields w).op.toNat = op) : encodeNNN op (fields w).nnn = w := by
  have := w.isLt
  rw [fields_op_toNat] at h
  apply BitVec.eq_of_toNat_eq
  rw [encodeNNN_toNat (by omega), fields_nnn_toNat]
  omega

theorem encodeXKK_fields {w : Word} {op : Nat} (h : (fields w).op.toNat = op) :
    encodeXKK op (fields w).x (fields w).kk = w := by
  have := w.isLt
  rw [fields_op_toNat] at h
  apply BitVec.eq_of_toNat_eq
  rw [encodeXKK_toNat (by omega), fields_x_val, fields_kk_toNat]
  omega

theorem encodeXYN_fields {w : Word} {op : Nat} (h : (fields w).op.toNat = op) :
    encodeXYN op (fields w).x (fields w).y (fields w).n = w := by
  have := w.isLt
  rw [fields_op_toNat] at h
  apply BitVec.eq_of_toNat_eq
  rw [encodeXYN_toNat (by omega), fields_x_val, fields_y_val, fields_n_val]
  omega

/-- Format XS: the low byte is the one the decoder found. -/
theorem encodeXS_fields {w : Word} {op k : Nat} (h : (fields w).op.toNat = op) (hk : (fields w).kk.toNat = k) :
    encodeXKK op (fields w).x (BitVec.ofNat 8 k) = w := by
  rw [← hk, BitVec.ofNat_toNat, BitVec.setWidth_eq, encodeXKK_fields h]

/-- Format XYS: the low nibble is the one the decoder found. -/
theorem encodeXYS_fields {w : Word} {op : Nat} {k : Fin 16} (h : (fields w).op.toNat = op) (hk : (fields w).n = k) :
    encodeXYN op (fields w).x (fields w).y k = w := by
  rw [← hk, encodeXYN_fields h]

/-! ### Encoding what a word decodes to -/

theorem encode_decodeArith {w : Word} (h : (fields w).op.toNat = 0x8) : encode (decodeArith (fields w) w) = w := by
  unfold decodeArith
  split
  case h_10 => rfl
  all_goals exact encodeXYS_fields h (Fin.ext ‹_›)

theorem encode_decodeKey {w : Word} (h : (fields w).op.toNat = 0xE) : encode (decodeKey (fields w) w) = w := by
  unfold decodeKey
  split
  case h_3 => rfl
  all_goals exact encodeXS_fields h ‹_›

theorem encode_decodeMisc {w : Word} (h : (fields w).op.toNat = 0xF) : encode (decodeMisc (fields w) w) = w := by
  unfold decodeMisc
  split
  case h_10 => rfl
  all_goals exact encodeXS_fields h ‹_›

/-- The decoder loses no bit of a word. One case per value of op: family 0, the formats NNN, XKK and XYN, and the
families in which n or kk selects the row. -/
@[simp] theorem encode_decodeWord (w : Word) : encode (decodeWord w) = w := by
  have := (fields w).op.isLt
  simp only [decodeWord]
  split
  case h_1 =>
    split_ifs with hcls hret
    · exact hcls.symm
    · exact hret.symm
    · rfl
  case h_2 h | h_3 h | h_11 h | h_12 h => exact encodeNNN_fields h
  case h_4 h | h_5 h | h_7 h | h_8 h | h_13 h => exact encodeXKK_fields h
  case h_6 h | h_10 h =>
    split_ifs with hn
    · exact encodeXYS_fields h hn
    · rfl
  case h_9 h => exact encode_decodeArith h
  case h_14 h => exact encodeXYN_fields h
  case h_15 h => exact encode_decodeKey h
  case h_16 => exact encode_decodeMisc (by simp only [imp_false] at *; omega)

theorem eq_of_decodeWord_unknown {w u : Word} (h : decodeWord w = .unknown u) : u = w := by
  simpa [h, encode] using encode_decodeWord w

end Sys2Proof
end

section
/-! SUPPORT. The unknown words (30_encoding.md R87, 40_engine.md R115), three ways that are shown equal in a circle: the
decoder answers UNKNOWN, the word is in one of R87's families, the word matches no row of the table. -/

namespace Sys2Proof

/-- R87's list of unknown words, family by family. -/
def InUnknownFamily (w : Word) : Prop :=
  (w.toNat / 0x1000 = 0x0 ∧ w ≠ 0x00E0 ∧ w ≠ 0x00EE) ∨
  (w.toNat / 0x1000 = 0x5 ∧ w.toNat % 0x10 ≠ 0) ∨
  (w.toNat / 0x1000 = 0x8 ∧ w.toNat % 0x10 ∈ [0x8, 0x9, 0xA, 0xB, 0xC, 0xD, 0xF]) ∨
  (w.toNat / 0x1000 = 0x9 ∧ w.toNat % 0x10 ≠ 0) ∨
  (w.toNat / 0x1000 = 0xE ∧ w.toNat % 0x100 ∉ [0x9E, 0xA1]) ∨
  (w.toNat / 0x1000 = 0xF ∧ w.toNat % 0x100 ∉ [0x07, 0x0A, 0x15, 0x18, 0x1E, 0x29, 0x33, 0x55, 0x65])

/-! ### An UNKNOWN answer means a listed word -/

theorem fields_n_eq_zero (w : Word) : (fields w).n = 0 ↔ w.toNat % 0x10 = 0 := by
  rw [← fields_n_val, Fin.ext_iff, Fin.val_zero]

theorem n_of_decodeArith_unknown {w u : Word} (h : decodeArith (fields w) w = .unknown u) :
    w.toNat % 0x10 ∈ [0x8, 0x9, 0xA, 0xB, 0xC, 0xD, 0xF] := by
  unfold decodeArith at h
  split at h <;> cases h
  simp only [fields_n_val, imp_false, List.mem_cons, List.not_mem_nil, or_false] at *
  omega

theorem kk_of_decodeKey_unknown {w u : Word} (h : decodeKey (fields w) w = .unknown u) :
    w.toNat % 0x100 ∉ [0x9E, 0xA1] := by
  unfold decodeKey at h
  split at h <;> cases h
  simp_all [fields_kk_toNat]

theorem kk_of_decodeMisc_unknown {w u : Word} (h : decodeMisc (fields w) w = .unknown u) :
    w.toNat % 0x100 ∉ [0x07, 0x0A, 0x15, 0x18, 0x1E, 0x29, 0x33, 0x55, 0x65] := by
  unfold decodeMisc at h
  split at h <;> cases h
  simp_all [fields_kk_toNat]

theorem inUnknownFamily_of_decodeWord {w u : Word} (h : decodeWord w = .unknown u) : InUnknownFamily w := by
  have := w.isLt
  simp only [decodeWord, fields_op_toNat, fields_n_eq_zero] at h
  split at h
  case h_1 op =>
    split_ifs at h with hcls hret
    exact .inl ⟨op, hcls, hret⟩
  case h_6 op =>
    split_ifs at h with hn
    exact .inr (.inl ⟨op, hn⟩)
  case h_9 op => exact .inr (.inr (.inl ⟨op, n_of_decodeArith_unknown h⟩))
  case h_10 op =>
    split_ifs at h with hn
    exact .inr (.inr (.inr (.inl ⟨op, hn⟩)))
  case h_15 op => exact .inr (.inr (.inr (.inr (.inl ⟨op, kk_of_decodeKey_unknown h⟩))))
  case h_16 =>
    have op : w.toNat / 0x1000 = 0xF := by simp only [imp_false] at *; omega
    exact .inr (.inr (.inr (.inr (.inr ⟨op, kk_of_decodeMisc_unknown h⟩))))
  all_goals cases h

/-! ### A listed word matches no row -/

theorem isUnknownWord_iff {w : Word} : isUnknownWord w = true ↔ ∀ r ∈ opcodeRows, w &&& r.mask ≠ r.pattern := by
  simp [isUnknownWord, OpcodeRow.matchesWord]

/-- Each row is, by its mask, an equation on the word, on op, on op and n, or on op and kk. -/
theorem isUnknownWord_of_inUnknownFamily {w : Word} (h : InUnknownFamily w) : isUnknownWord w = true := by
  have hfull : w &&& 0xFFFF = w := BitVec.and_allOnes
  simp only [isUnknownWord_iff, opcodeRows, opcodeRowsA, opcodeRowsB, opcodeRowsC, List.forall_mem_append,
    List.forall_mem_cons, ne_eq, hfull, ← BitVec.toNat_inj, and_op, and_op_n, and_op_kk]
  simp only [InUnknownFamily, ne_eq, ← BitVec.toNat_inj, List.mem_cons, List.not_mem_nil, or_false] at h
  simp only [BitVec.ofNat_eq_ofNat, BitVec.toNat_ofNat, List.not_mem_nil, false_imp_iff, implies_true,
    and_true] at h ⊢
  rcases h with family0 | family5 | family8 | family9 | familyE | familyF <;> omega

/-! ### A word that matches no row decodes to UNKNOWN -/

open Laws.EncodesInRow in
theorem encodesInRow : ∀ i : Instr, Statement i
  | .cls => cls | .ret => ret | .jp _ => jp _ | .call _ => call _ | .seImm _ _ => seImm _ _
  | .sneImm _ _ => sneImm _ _ | .seReg _ _ => seReg _ _ | .ldImm _ _ => ldImm _ _ | .addImm _ _ => addImm _ _
  | .ldReg _ _ => ldReg _ _ | .orReg _ _ => orReg _ _ | .andReg _ _ => andReg _ _ | .xorReg _ _ => xorReg _ _
  | .addReg _ _ => addReg _ _ | .sub _ _ => sub _ _ | .shr _ _ => shr _ _ | .subn _ _ => subn _ _
  | .shl _ _ => shl _ _ | .sneReg _ _ => sneReg _ _ | .ldI _ => ldI _ | .jpV0 _ => jpV0 _ | .rnd _ _ => rnd _ _
  | .drw _ _ _ => drw _ _ _ | .skp _ => skp _ | .sknp _ => sknp _ | .ldVxDt _ => ldVxDt _ | .ldVxK _ => ldVxK _
  | .ldDt _ => ldDt _ | .ldSt _ => ldSt _ | .addI _ => addI _ | .ldF _ => ldF _ | .ldB _ => ldB _
  | .storeRegs _ => storeRegs _ | .loadRegs _ => loadRegs _ | .unknown _ => unknown _

theorem exists_row_of_known {i : Instr} (hi : ∀ w, i ≠ .unknown w) :
    ∃ r ∈ opcodeRows, r.mnemonic = i.mnemonic ∧ encode i &&& r.mask = r.pattern := by
  have h := encodesInRow i
  unfold Laws.EncodesInRow.Statement at h
  split at h
  case h_1 r hr =>
    have hname : r.mnemonic = i.mnemonic := by simpa using List.find?_some hr
    exact ⟨r, List.mem_of_find?_eq_some hr, hname, eq_of_beq h⟩
  case h_2 hnone =>
    cases i with
    | unknown w => exact absurd rfl (hi w)
    | _ => cases hnone

theorem decodeWord_of_isUnknownWord {w : Word} (h : isUnknownWord w = true) : decodeWord w = .unknown w := by
  by_cases hknown : ∀ u, decodeWord w ≠ .unknown u
  · obtain ⟨r, hr, -, hmatch⟩ := exists_row_of_known hknown
    rw [encode_decodeWord] at hmatch
    exact absurd hmatch (isUnknownWord_iff.mp h r hr)
  · obtain ⟨u, hu⟩ := not_forall_not.mp hknown
    rw [hu, eq_of_decodeWord_unknown hu]

theorem isUnknownWord_of_decodeWord {w u : Word} (h : decodeWord w = .unknown u) : isUnknownWord w = true :=
  isUnknownWord_of_inUnknownFamily (inUnknownFamily_of_decodeWord h)

end Sys2Proof
end

section
/-! PROOFS. The encoding (30_encoding.md R80 to R88): fields, rows, unknown words, and the two directions of decode and
encode. -/

namespace Sys2Proof

/-! ### Decoding what an instruction encodes to -/

/-- One case per encoding format: its fields are read back, and they select the instruction's own row. -/
theorem decodeWord_encode {i : Instr} (h : i.wf = true) : decodeWord (encode i) = i := by
  cases i with
  | unknown w => exact decodeWord_of_isUnknownWord h
  | cls | ret => rfl
  | jp | call | ldI | jpV0 => simp [encode, decodeWord, fields_encodeNNN]
  | seImm | sneImm | ldImm | addImm | rnd => simp [encode, decodeWord, fields_encodeXKK]
  | seReg | sneReg | drw => simp [encode, decodeWord, fields_encodeXYN]
  | ldReg | orReg | andReg | xorReg | addReg | sub | shr | subn | shl =>
    simp [encode, decodeWord, decodeArith, fields_encodeXYN]
  | skp | sknp => simp [encode, decodeWord, decodeKey, fields_encodeXKK]
  | ldVxDt | ldVxK | ldDt | ldSt | addI | ldF | ldB | storeRegs | loadRegs =>
    simp [encode, decodeWord, decodeMisc, fields_encodeXKK]

theorem decodeBytes_encodeBytes (i : Instr) (rest : List Byte) :
    decodeBytes (encodeBytes i ++ rest) = .ok (decodeWord (encode i), rest) := by
  simp [encodeBytes, decodeBytes]

/-- Settles O5: each format's fields are read back, and a word's two bytes join to the word. -/
theorem decodeEncodeRoundTrip : Obligations.DecodeEncodeRoundTrip :=
  fun i h => ⟨decodeWord_encode h, fun rest => by rw [decodeBytes_encodeBytes, decodeWord_encode h]⟩

/-! ### The rows of the table -/

/-- No two rows agree on the bits that both masks keep. -/
theorem opcodeRows_differ_on_common_mask :
    ∀ r ∈ opcodeRows, ∀ q ∈ opcodeRows, r.pattern &&& q.mask = q.pattern &&& r.mask → r = q := by decide

theorem row_unique {w : Word} {r q : OpcodeRow} (hr : r ∈ opcodeRows) (hq : q ∈ opcodeRows)
    (hwr : w &&& r.mask = r.pattern) (hwq : w &&& q.mask = q.pattern) : r = q := by
  refine opcodeRows_differ_on_common_mask r hr q hq ?_
  rw [← hwr, ← hwq, BitVec.and_assoc, BitVec.and_assoc, BitVec.and_comm r.mask]

theorem mnemonic_decodeWord_of_row {w : Word} {r : OpcodeRow} (hr : r ∈ opcodeRows)
    (hmatch : w &&& r.mask = r.pattern) : (decodeWord w).mnemonic = r.mnemonic := by
  have hknown : ∀ u, decodeWord w ≠ .unknown u :=
    fun u hu => isUnknownWord_iff.mp (isUnknownWord_of_decodeWord hu) r hr hmatch
  obtain ⟨q, hq, hname, hwq⟩ := exists_row_of_known hknown
  rw [encode_decodeWord] at hwq
  rw [← hname, row_unique hq hr hwq hmatch]

/-- Settles O3: a word is the encoding of what it decodes to, which lies in its own row, and rows are disjoint. -/
theorem decoderSelectsTheMatchingRow : Obligations.DecoderSelectsTheMatchingRow :=
  ⟨fun _ _ hr hmatch => mnemonic_decodeWord_of_row hr hmatch,
   fun _ _ hr _ hq hwr hwq => row_unique hr hq hwr hwq,
   fun _ => ⟨fun h => isUnknownWord_iff.mp (isUnknownWord_of_decodeWord h),
    fun h => decodeWord_of_isUnknownWord (isUnknownWord_iff.mpr h)⟩⟩

/-! ### The unknown words and their path -/

theorem exec_unknown (w : Word) (s : Machine.State) :
    Machine.exec (.unknown w) s = .next { s with diag := s.diag ++ [⟨s.pc, w⟩], pc := s.pc + 2 } := rfl

/-- Settles O4: the circle of the unknown words, and the effect of the UNKNOWN term. -/
theorem unknownWordsAreTheListedOnes : Obligations.UnknownWordsAreTheListedOnes := by
  refine fun w => ⟨⟨fun ⟨_, hu⟩ => inUnknownFamily_of_decodeWord hu,
    fun hlist => ⟨w, decodeWord_of_isUnknownWord (isUnknownWord_of_inUnknownFamily hlist)⟩⟩, fun u s hu => ?_⟩
  rw [hu, eq_of_decodeWord_unknown hu, exec_unknown]

/-! ### Encoding what a word decodes to -/

theorem wf_decodeWord (w : Word) : (decodeWord w).wf = true := by
  cases h : decodeWord w with
  | unknown u => exact eq_of_decodeWord_unknown h ▸ isUnknownWord_of_decodeWord h
  | _ => rfl

/-- Settles O6: the decoder loses no bit, and only words without a row decode to UNKNOWN. That the shifts keep their
ignored y is the model's choice (log entry 9). -/
theorem everyWordEncodesBack : Obligations.EveryWordEncodesBack :=
  fun w => ⟨wf_decodeWord w, encode_decodeWord w⟩

/-! ### Fields and samples -/

theorem testBit_nibble (w : Word) (lo : Nat) {b : Nat} (hb : b < 4) :
    (nibble w lo).val.testBit b = w.getLsbD (lo + b) := by
  change (w.extractLsb' lo 4).toNat.testBit b = w.getLsbD (lo + b)
  rw [BitVec.testBit_toNat, BitVec.getLsbD_extractLsb', decide_eq_true hb, Bool.true_and]

/-- Settles O2: every field is an extraction at its lowest bit. -/
theorem fieldsAreTheBitsOfTheWord : Obligations.FieldsAreTheBitsOfTheWord := by
  intro w
  refine ⟨fun b hb => ?op, fun b => testBit_nibble w 8, fun b => testBit_nibble w 4, fun b hb => ?n, fun b hb => ?kk,
    fun b hb => ?nnn⟩
  case n => exact (testBit_nibble w 0 hb).trans (congrArg w.getLsbD (Nat.zero_add b))
  all_goals simp [fields, hb]

/-- Settles O7, by evaluating the decoder on the ten words. -/
theorem sampleWordsDecode : Obligations.SampleWordsDecode := by
  unfold Obligations.SampleWordsDecode
  decide

end Sys2Proof
end

section
/-! PROOFS. The step around an instruction (40_engine.md R110 to R119): when a step answers a next state, and which state
that is once the fetched instruction has completed or raised a fault. -/

namespace Sys2Proof.Machine

/-! ### The handlers answer -/

theorem guarded_answers (failure : Option Raise) (s effect : State) : ∃ t, guarded failure s effect = .next t := by
  cases failure with
  | none => exact ⟨effect, rfl⟩
  | some f => exact ⟨raise f s, rfl⟩

theorem exec_answers (i : Instr) (s : State) : ∃ t, exec i s = .next t :=
  exec_eq_guarded i s ▸ guarded_answers (instrFailure i s) s (instrEffect i s)

/-- Settles O11: every handler is a check and an effect, and either way it answers. -/
theorem everyInstructionAnswersANextState : Obligations.EveryInstructionAnswersANextState := exec_answers

/-! ### The tick after the handler -/

theorem countDown_eq (t : Byte) : countDown t = if t = 0 then 0 else t - 1 :=
  ite_congr rfl id fun _ => rfl

theorem tick_eq (s : State) :
    s.tick = { s with dt := if s.dt = 0 then 0 else s.dt - 1, st := if s.st = 0 then 0 else s.st - 1 } := by
  rw [State.tick, countDown_eq, countDown_eq]

theorem completeStep_of_completed {t : State} (h : t.fault = none) : completeStep (.next t) = .next t.tick := by
  simp [completeStep, h]

theorem completeStep_of_faulted {t : State} (h : t.fault ≠ none) : completeStep (.next t) = .next t := by
  simp [completeStep, Option.isSome_iff_ne_none.mpr h]

/-! ### The step -/

theorem step_of_fetch {s : State} {w : Word} (hf : s.fault = none) (hw : fetchWord s = some w) :
    step s = completeStep (exec (decodeWord w) s) := by
  simp [step, hf, hw]

theorem step_of_completed {s t : State} {w : Word} (hf : s.fault = none) (hw : fetchWord s = some w)
    (hexec : exec (decodeWord w) s = .next t) (ht : t.fault = none) : step s = .next t.tick := by
  rw [step_of_fetch hf hw, hexec, completeStep_of_completed ht]

theorem step_of_raised {s t : State} {w : Word} (hf : s.fault = none) (hw : fetchWord s = some w)
    (hexec : exec (decodeWord w) s = .next t) (ht : t.fault ≠ none) : step s = .next t := by
  rw [step_of_fetch hf hw, hexec, completeStep_of_faulted ht]

/-- A step from an unfaulted state answers: with the fetch's fault, the handler's fault, or the ticked effect. -/
theorem step_answers {s : State} (hf : s.fault = none) : ∃ t, step s = .next t := by
  cases hw : fetchWord s with
  | none => exact ⟨_, step_fetchRange hf (fetchWord_none.mp hw)⟩
  | some w =>
    obtain ⟨t, hexec⟩ := exec_answers (decodeWord w) s
    by_cases ht : t.fault = none
    · exact ⟨_, step_of_completed hf hw hexec ht⟩
    · exact ⟨_, step_of_raised hf hw hexec ht⟩

/-- Settles O10: a recorded fault is the one stop of the step, and the host's Step is the step where it answers. -/
theorem faultedCoreTakesNoStep : Obligations.FaultedCoreTakesNoStep := by
  refine fun s => ⟨fun r h => ⟨step_faulted h, stepOp_faulted h⟩, fun hf => ?_⟩
  obtain ⟨t, ht⟩ := step_answers hf
  exact ⟨t, ht, stepOp_eq ht⟩

theorem decodeWord_of_decodeBytes {hi lo : Byte} {i : Instr} {rest : List Byte}
    (h : decodeBytes [hi, lo] = .ok (i, rest)) : decodeWord (hi ++ lo) = i :=
  congrArg Prod.fst (Except.ok.inj h)

/-- Settles O8: the fetched word is the two bytes' word, and the tick follows only a handler that completed. -/
theorem stepRunsTheDecodedInstructionThenTicks : Obligations.StepRunsTheDecodedInstructionThenTicks := by
  intro s i hf hpc hdecode
  have hi := decodeWord_of_decodeBytes hdecode
  obtain ⟨t, hexec⟩ := exec_answers i s
  refine ⟨t, hexec, fun ht => ?completed, fun ht => ?raised⟩
  case completed => rw [← tick_eq, step_of_completed hf (fetchWord_some hpc) (hi ▸ hexec) ht]
  case raised => exact step_of_raised hf (fetchWord_some hpc) (hi ▸ hexec) ht

/-- Settles O39: the handler's one event and advance leave `fault` as it was, so the tick follows. That the event is
appended to `diag` is the model's choice (log entry 4). -/
theorem unknownWordEmitsOneDiagnosticAndAdvances : Obligations.UnknownWordEmitsOneDiagnosticAndAdvances := by
  refine fun w s => ⟨exec_unknown w s, fun hf hw hu => ?_⟩
  have hexec := exec_unknown w s
  rw [← hu] at hexec
  rw [step_of_completed hf hw hexec hf, tick_eq]

end Sys2Proof.Machine
end

section
/-! PROOFS. The register skips (41_skips.md R130 to R134). -/

namespace Sys2Proof.Machine

/-- R130, with the decision of a skip read as the proposition that it decides. -/
theorem skipIf_of_iff (s : State) {taken : Bool} {p : Prop} [Decidable p] (h : taken = true ↔ p) :
    s.skipIf taken = { s with pc := if p then s.pc + 4 else s.pc + 2 } := by
  by_cases hp : p
  · rw [if_pos hp, h.mpr hp]; rfl
  · rw [if_neg hp, eq_false_of_ne_true (mt h.mp hp)]; rfl

theorem exec_skip {i : Instr} {s : State} {taken : Bool} {p : Prop} [Decidable p] (hcheck : instrFailure i s = none)
    (heffect : instrEffect i s = s.skipIf taken) (h : taken = true ↔ p) :
    exec i s = .next { s with pc := if p then s.pc + 4 else s.pc + 2 } := by
  rw [exec_of_check hcheck, heffect, skipIf_of_iff s h]

/-- Settles O17: none of the four has a check, and each skips on the equality or inequality it tests. -/
theorem registerSkipsAdvanceByFourOrTwo : Obligations.RegisterSkipsAdvanceByFourOrTwo :=
  fun _ _ _ _ => ⟨exec_skip rfl rfl beq_iff_eq, exec_skip rfl rfl bne_iff_ne, exec_skip rfl rfl beq_iff_eq,
    exec_skip rfl rfl bne_iff_ne⟩

end Sys2Proof.Machine
end

section
/-! PROOFS. Loads, arithmetic, logic, shifts and random (42_alu.md R141 to R153). -/

namespace Sys2Proof.Machine

/-! ### Byte arithmetic over the numbers that the bytes stand for -/

theorem byte_add_eq (a b : Byte) : a + b = BitVec.ofNat 8 ((a.toNat + b.toNat) % 256) :=
  BitVec.eq_of_toNat_eq (by simp)

theorem byte_sub_eq (a b : Byte) : a - b = BitVec.ofNat 8 ((256 + a.toNat - b.toNat) % 256) := by
  refine BitVec.eq_of_toNat_eq ?_
  rw [BitVec.toNat_sub, BitVec.toNat_ofNat]
  omega

theorem byte_shiftRight_one_eq (a : Byte) : a >>> 1 = BitVec.ofNat 8 (a.toNat / 2) := by
  refine BitVec.eq_of_toNat_eq ?_
  rw [BitVec.toNat_ushiftRight, BitVec.toNat_ofNat, Nat.shiftRight_eq_div_pow]
  omega

theorem byte_shiftLeft_one_eq (a : Byte) : a <<< 1 = BitVec.ofNat 8 (a.toNat * 2 % 256) := by
  refine BitVec.eq_of_toNat_eq ?_
  rw [BitVec.toNat_shiftLeft, BitVec.toNat_ofNat, Nat.shiftLeft_eq]
  omega

theorem flagByte_decide (p : Prop) [Decidable p] : flagByte (decide p) = if p then 1 else 0 := by
  by_cases h : p <;> simp [flagByte, h]

/-! ### Instructions that write one register -/

theorem exec_setV {i : Instr} {s : State} {x : Reg} {b c : Byte} (hcheck : instrFailure i s = none)
    (heffect : instrEffect i s = (s.setV x b).advance 2) (hb : b = c) :
    exec i s = .next { s with V := s.V.set x c, pc := s.pc + 2 } := by
  rw [exec_of_check hcheck, heffect, hb]
  rfl

/-- Settles O18: none of the six has a check, and each sets Vx alone. -/
theorem loadsAndLogicWriteOneRegister : Obligations.LoadsAndLogicWriteOneRegister :=
  fun _ _ _ _ => ⟨exec_setV rfl rfl rfl, exec_setV rfl rfl (byte_add_eq _ _), exec_setV rfl rfl rfl,
    exec_setV rfl rfl rfl, exec_setV rfl rfl rfl, exec_setV rfl rfl rfl⟩

/-- Settles O22: the effect of Cxkk is `rndWith` of the free draw (log entry 3), which sets Vx for every draw. -/
theorem randomWritesTheMaskedDraw : Obligations.RandomWritesTheMaskedDraw :=
  fun _ _ _ => ⟨exec_of_check rfl, fun _ => rfl⟩

/-! ### Instructions that write a flag and then a result -/

/-- What the result of a flag-writing instruction reads from register r once `f` is in VF (R147). -/
def State.operandUnder (s : State) (mode : VfAliasRead) (f : Byte) (r : Reg) : Byte :=
  if mode = .afterFlag ∧ r = 15 then f else s.v r

theorem operandUnder_latched (s : State) (f : Byte) (r : Reg) : s.operandUnder .latched f r = s.v r :=
  if_neg (by simp)

theorem operandUnder_afterFlag (s : State) (f : Byte) (r : Reg) :
    s.operandUnder .afterFlag f r = (s.setV vf f).v r := by
  rw [v_setV]
  exact if_congr (and_iff_right rfl) rfl rfl

theorem flagThenResult_eq (s : State) (mode : VfAliasRead) (x y : Reg) (flag : Byte → Byte → Bool)
    (result : Byte → Byte → Byte) {f : Byte} (hf : flagByte (flag (s.v x) (s.v y)) = f) :
    s.flagThenResult mode x y flag result =
      (s.setV vf f).setV x (result (s.operandUnder mode f x) (s.operandUnder mode f y)) := by
  subst hf
  cases mode with
  | afterFlag => rw [operandUnder_afterFlag, operandUnder_afterFlag]; rfl
  | latched => rw [operandUnder_latched, operandUnder_latched]; rfl

theorem exec_flagThenResult {i : Instr} {s : State} {mode : VfAliasRead} {x y : Reg} {flag : Byte → Byte → Bool}
    {result : Byte → Byte → Byte} {f c : Byte} (hcheck : instrFailure i s = none)
    (heffect : instrEffect i s = (s.flagThenResult mode x y flag result).advance 2)
    (hf : flagByte (flag (s.v x) (s.v y)) = f)
    (hc : result (s.operandUnder mode f x) (s.operandUnder mode f y) = c) :
    exec i s = .next { s with V := (s.V.set 15 f).set x c, pc := s.pc + 2 } := by
  rw [exec_of_check hcheck, heffect, flagThenResult_eq s mode x y flag result hf, hc]
  rfl

/-- Settles O19: the sum is of the latched operands, whichever registers they are. -/
theorem addWithCarry : Obligations.AddWithCarry := by
  refine fun x y s => exec_flagThenResult rfl rfl (flagByte_decide _) ?_
  rw [operandUnder_latched, operandUnder_latched]
  exact byte_add_eq _ _

/-- Settles O20: one argument for both, with the operands exchanged in 8xy7. -/
theorem subtractionsSetStrictNotBorrow : Obligations.SubtractionsSetStrictNotBorrow :=
  fun _ _ _ => ⟨exec_flagThenResult rfl rfl (flagByte_decide _) (byte_sub_eq _ _),
    exec_flagThenResult rfl rfl (flagByte_decide _) (byte_sub_eq _ _)⟩

/-- Settles O21: the shifts read Vx as both operands, so y has no effect. -/
theorem shiftsPutTheLostBitInVf : Obligations.ShiftsPutTheLostBitInVf :=
  fun _ _ _ => ⟨exec_flagThenResult rfl rfl rfl (byte_shiftRight_one_eq _),
    exec_flagThenResult rfl rfl rfl (byte_shiftLeft_one_eq _)⟩

end Sys2Proof.Machine
end

section
/-! PROOFS. Jumps, calls and returns (43_control.md R170 to R176). -/

namespace Sys2Proof.Machine

/-! ### Jump targets -/

theorem toNat_addr16 (nnn : Addr) : (addr16 nnn).toNat = nnn.toNat :=
  BitVec.toNat_setWidth_of_le (by decide)

theorem addr16_eq (nnn : Addr) : addr16 nnn = BitVec.ofNat 16 nnn.toNat :=
  BitVec.eq_of_toNat_eq (by rw [toNat_addr16]; simp; omega)

/-- The target of the indexed jump is the unbounded sum: it wraps neither to 12 nor to 16 bits (R176). -/
theorem toNat_addr16_add_byte16 (nnn : Addr) (b : Byte) : (addr16 nnn + byte16 b).toNat = nnn.toNat + b.toNat := by
  have hb : (byte16 b).toNat = b.toNat := BitVec.toNat_setWidth_of_le (by decide)
  rw [BitVec.toNat_add, toNat_addr16, hb]
  omega

theorem indexedTarget_le (nnn : Addr) (b : Byte) : nnn.toNat + b.toNat ≤ 0x10FE := by
  omega

theorem addr16_add_byte16_eq (nnn : Addr) (b : Byte) :
    addr16 nnn + byte16 b = BitVec.ofNat 16 (nnn.toNat + b.toNat) := by
  rw [← toNat_addr16_add_byte16, BitVec.ofNat_toNat, BitVec.setWidth_eq]

/-- Settles O23: neither jump has a check, and each target is its sum as a number. -/
theorem jumpsSetPcToTheirTarget : Obligations.JumpsSetPcToTheirTarget := by
  refine fun nnn s => ⟨?direct, ?indexed, indexedTarget_le nnn _⟩
  case direct => rw [← addr16_eq]; rfl
  case indexed => rw [← addr16_add_byte16_eq]; rfl

/-! ### Calls and returns -/

theorem exec_of_failure {i : Instr} {s : State} {f : Raise} (h : instrFailure i s = some f) :
    exec i s = .next (raise f s) := by
  rw [exec_eq_guarded, h, guarded_some]

theorem exec_call_of_full (nnn : Addr) {s : State} (h : s.sp.val = 16) :
    exec (.call nnn) s = .next { s with fault := some ⟨.stackOverflow, 16, s.pc⟩ } :=
  exec_of_failure (f := (.stackOverflow, 16)) (by simp [instrFailure, h])

theorem exec_call_of_room (nnn : Addr) {s : State} (h : s.sp.val < 16) :
    exec (.call nnn) s = .next { s with
      stack := s.stack.set s.sp.val s.pc h, sp := ⟨s.sp.val + 1, Nat.succ_lt_succ h⟩,
      pc := BitVec.ofNat 16 nnn.toNat } := by
  obtain ⟨hfull, -⟩ | ⟨_, hpush⟩ := push_cases s s.pc
  · exact absurd hfull h.ne
  · rw [← addr16_eq]
    simp only [exec, execCall, hpush, State.jump]

theorem exec_ret_of_empty {s : State} (h : s.sp.val = 0) :
    exec .ret s = .next { s with fault := some ⟨.stackUnderflow, 0, s.pc⟩ } :=
  exec_of_failure (f := (.stackUnderflow, 0)) (by simp [instrFailure, h])

theorem exec_ret_of_succ {s : State} {k : Fin 16} (h : s.sp = k.succ) :
    exec .ret s = .next { s with sp := k.castSucc, pc := s.stack[k] + 2 } := by
  have hcheck : instrFailure .ret s = none := by simp [instrFailure, h]
  rw [exec_of_check hcheck]
  simp [instrEffect, h, Fin.ext_iff]

/-- Settles O24: a CALL either finds room for its push or enters the fault. -/
theorem callPushesItsOwnAddress : Obligations.CallPushesItsOwnAddress :=
  fun nnn _ => ⟨exec_call_of_full nnn, exec_call_of_room nnn⟩

/-- Settles O25: a RET either finds an entry to pop or enters the fault. -/
theorem returnResumesAfterTheCall : Obligations.ReturnResumesAfterTheCall :=
  fun _ => ⟨exec_ret_of_empty, fun _ => exec_ret_of_succ⟩

/-- Settles O26: the entry that the RET reads is the one the CALL pushed, its own address. -/
theorem returnUndoesCall : Obligations.ReturnUndoesCall := by
  intro nnn s t u hroom hcall hstack hsp
  obtain rfl := Host.Outcome.next.inj ((exec_call_of_room nnn hroom).symm.trans hcall)
  have hentry : u.stack[s.sp.val] = s.pc := by simp [hstack]
  rw [exec_ret_of_succ (k := ⟨s.sp.val, hroom⟩) hsp, Fin.getElem_fin, hentry]
  rfl

end Sys2Proof.Machine
end

section
/-! PROOFS. The invariant of reachable states (10_state.md R26, 20_memory.md R51, 43_control.md R170): a bound on pc at
the fetch, on the stack and on stores gives each part of it back after the instruction. -/

namespace Sys2Proof.Machine

/-! ### What an effect leaves of each part -/

section Effects
variable {i : Instr} {s : State}

/-- A store of at least one byte that passes its check ends inside memory. -/
theorem end_le_of_writeCheck {base n : Nat} (h : firstFailure writeCheck base (n + 1) = none) :
    base + (n + 1) ≤ Config.memSize := by
  have := firstFailure_write_none.mp h
  simp only [Config.memSize]
  omega

theorem instrEffect_memWf (hcheck : instrFailure i s = none) (h : s.mem.wf = true) :
    (instrEffect i s).mem.wf = true := by
  cases i with
  | ldB x => exact Memory.wf_writeBytes _ h (end_le_of_writeCheck hcheck)
  | storeRegs x =>
    refine Memory.wf_writeBytes _ h ?_
    rw [length_regsThrough]
    exact end_le_of_writeCheck hcheck
  | _ => simpa [instrEffect] using h

theorem instrEffect_lowClear (hcheck : instrFailure i s = none) (h : s.mem.lowClear = true) :
    (instrEffect i s).mem.lowClear = true := by
  cases i with
  | ldB x | storeRegs x => exact Memory.lowClear_writeBytes _ h (progBase_le_of_writeCheck hcheck)
  | _ => simpa [instrEffect] using h

/-- The one push is the CALL's, of the pc it was fetched at. -/
theorem instrEffect_stackBounded (hpc : s.pc.toNat ≤ 0xFFE) (h : s.stackBounded) : (instrEffect i s).stackBounded := by
  intro k
  cases i with
  | call nnn =>
    simp only [instrEffect, Fin.getElem_fin, Vector.getElem_setIfInBounds]
    split
    · exact hpc
    · exact h k
  | _ => simpa [instrEffect] using h k

/-- A pc that passed the fetch check, advanced by at most a skip. -/
theorem toNat_add_le_of_fetchable {p k : Word} (hp : p.toNat ≤ 0xFFE) (hk : k.toNat ≤ 4) : (p + k).toNat ≤ 0x10FE := by
  rw [BitVec.toNat_add]
  omega

theorem skipIf_pc_le (taken : Bool) (hpc : s.pc.toNat ≤ 0xFFE) : (s.skipIf taken).pc.toNat ≤ 0x10FE :=
  toNat_add_le_of_fetchable hpc (by cases taken <;> decide)

/-- R170: pc comes from a 12-bit target with or without V0, from a stack entry, or from the pc of the fetch. -/
theorem instrEffect_pc_le (hpc : s.pc.toNat ≤ 0xFFE) (h : s.stackBounded) : (instrEffect i s).pc.toNat ≤ 0x10FE := by
  cases i with
  | jp nnn | call nnn =>
    have htarget := toNat_addr16 nnn
    simp only [instrEffect, jump_pc]
    omega
  | jpV0 nnn =>
    simp only [instrEffect, jump_pc, toNat_addr16_add_byte16]
    exact indexedTarget_le nnn _
  | ret => exact toNat_add_le_of_fetchable (h ⟨s.sp.val - 1, by omega⟩) (by decide)
  | seImm | sneImm | seReg | sneReg | skp | sknp => exact skipIf_pc_le _ hpc
  | ldVxK x =>
    cases hkey : s.firstKey with
    | none => simp only [instrEffect, hkey, Option.elim_none]; omega
    | some k => simpa only [instrEffect, hkey, Option.elim_some] using toNat_add_le_of_fetchable hpc (by decide)
  | _ =>
    have hnext : (s.pc + 2).toNat ≤ 0x10FE := toNat_add_le_of_fetchable hpc (by decide)
    simpa only [instrEffect, advance_pc, setV_pc, flagThenResult_pc, loadThrough_pc, rndWith_pc, draw_pc] using hnext

theorem instrEffect_inv (hcheck : instrFailure i s = none) (hpc : s.pc.toNat ≤ 0xFFE) (h : s.Inv) :
    (instrEffect i s).Inv where
  memWf := instrEffect_memWf hcheck h.memWf
  lowClear := instrEffect_lowClear hcheck h.lowClear
  pcBound := instrEffect_pc_le hpc h.stackBound
  stackBound := instrEffect_stackBounded hpc h.stackBound

end Effects

/-! ### The invariant along a step -/

section Steps
variable {s : State}

theorem raise_inv (f : Raise) (h : s.Inv) : (raise f s).Inv := { h with }

theorem tick_inv (h : s.Inv) : s.tick.Inv := { h with }

theorem exec_inv {i : Instr} {t : State} (hexec : exec i s = .next t) (hpc : s.pc.toNat ≤ 0xFFE) (h : s.Inv) :
    t.Inv := by
  obtain ⟨f, -, rfl⟩ | ⟨hcheck, rfl⟩ := exec_next hexec
  · exact raise_inv f h
  · exact instrEffect_inv hcheck hpc h

theorem pc_le_of_fetchWord {w : Word} (h : fetchWord s = some w) : s.pc.toNat ≤ 0xFFE := by
  by_contra hpc
  simp [fetchWord_none.mpr (not_le.mp hpc)] at h

theorem step_inv {t : State} (hstep : step s = .next t) (h : s.Inv) : t.Inv := by
  obtain ⟨-, ⟨-, rfl⟩ | ⟨w, hw, hcomplete⟩⟩ := step_next hstep
  · exact raise_inv _ h
  · obtain ⟨u, hexec, hend⟩ := completeStep_next hcomplete
    have hu : u.Inv := exec_inv hexec (pc_le_of_fetchWord hw) h
    obtain ⟨-, rfl⟩ | ⟨-, rfl⟩ := hend
    · exact tick_inv hu
    · exact hu

end Steps

/-- Settles O46: an instruction runs only from a pc that passed the fetch check, and every way a step can end keeps the
invariant. -/
theorem stepKeepsTheInvariant : Obligations.StepKeepsTheInvariant :=
  fun _ _ h hstep => step_inv hstep h

/-! ### The invariant under a host -/

section Hosts
variable {s : State}

theorem loadRom_inv (bytes : List Byte) (h : s.Inv) : (s.loadRom bytes).2.Inv := by
  unfold State.loadRom
  split
  · exact h
  · next hfits =>
    simp only [Config.romMax] at hfits
    exact { h with
      memWf := Memory.wf_writeBytes bytes h.memWf (by simp only [Config.progBase, Config.memSize]; omega)
      lowClear := Memory.lowClear_writeBytes bytes h.lowClear (le_refl _) }

theorem setKey_inv (index : Int) (pressed : Bool) (h : s.Inv) : (s.setKey index pressed).Inv := by
  unfold State.setKey
  split
  · exact { h with }
  · exact h

theorem stepOp_inv (h : s.Inv) : s.stepOp.Inv := by
  unfold State.stepOp
  split
  · next hstep => exact step_inv hstep h
  · exact h
  · exact h

theorem transact_inv (op : HostOp) (h : s.Inv) : (transact op s).2.Inv := by
  cases op with
  | loadRom bytes => exact loadRom_inv bytes h
  | setKey index pressed => exact setKey_inv index pressed h
  | step => exact stepOp_inv h
  | takeRedraw => exact { h with }
  | readFramebuffer | readSoundTimer | readFault => exact h

theorem Reachable.inv (h : Reachable s) : s.Inv := by
  induction h with
  | reset => exact resetMeetsTheInvariant
  | transact op _ ih => exact transact_inv op ih

end Hosts

/-- Settles O48: the bounds are read off the invariant of a reachable state, and memory that lists nothing below 0x200
reads there as after construction. -/
theorem reachableStatesAreBounded : Obligations.ReachableStatesAreBounded := by
  intro s hs
  have hinv := hs.inv
  refine ⟨hinv.pcBound, fun k => ?entry, fun a ha => ?low⟩
  case entry => have := hinv.stackBound k; omega
  case low => rw [Memory.read_low hinv.lowClear ha, reset_read]

end Sys2Proof.Machine
end

section
/-! PROOFS. The keypad instructions (44_keypad.md R180 to R184): the key skips, and the key wait for one step and for
any number of steps. -/

namespace Sys2Proof.Machine

/-! ### The key skips -/

theorem keyCheck_of_range {k : Byte} (h : k.toNat > 15) : keyCheck k = some (.keyRange, k.toNat) := if_pos h

theorem keyPressed_of_toNat_eq (s : State) {b : Byte} {k : Fin 16} (h : b.toNat = k.val) :
    s.keyPressed b.toNat = s.key[k] := by
  rw [h, keyPressed_eq]

/-- Settles O27: a key number above 15 fails the one check that both skips share; any other passes it and names the flag
that both test. -/
theorem keySkipsTestTheKeyNumberedByVx : Obligations.KeySkipsTestTheKeyNumberedByVx := by
  refine fun x s => ⟨fun hrange => ?raised, fun k hk => ?skipped⟩
  case raised =>
    have hcheck : keyCheck (s.v x) = some (.keyRange, (s.v x).toNat) := keyCheck_of_range hrange
    exact ⟨exec_of_failure (i := .skp x) hcheck, exec_of_failure (i := .sknp x) hcheck⟩
  case skipped =>
    have hcheck : keyCheck (s.v x) = none := keyCheck_none.mpr (hk ▸ Nat.le_of_lt_succ k.isLt)
    have hkey : s.keyPressed (s.v x).toNat = s.key[k] := keyPressed_of_toNat_eq s hk
    exact ⟨exec_skip (i := .skp x) hcheck rfl (by rw [hkey]),
      exec_skip (i := .sknp x) hcheck rfl (by rw [hkey, Bool.not_eq_true'])⟩

/-! ### The key wait, one step -/

theorem firstKey_of_lowest {s : State} {k : Fin 16} (hk : s.key[k] = true)
    (hbelow : ∀ j : Fin 16, j < k → s.key[j] = false) : s.firstKey = some k.val := by
  refine List.find?_range_eq_some.mpr ⟨(keyPressed_eq s k).trans hk, List.mem_range.mpr k.isLt, fun j hj => ?_⟩
  have hj' := hbelow ⟨j, hj.trans k.isLt⟩ hj
  rw [← keyPressed_eq] at hj'
  rw [hj', Bool.not_false]

theorem firstKey_of_no_key {s : State} (h : ∀ k : Fin 16, s.key[k] = false) : s.firstKey = none :=
  firstKey_none.mpr fun k hk => (keyPressed_eq s ⟨k, hk⟩).trans (h ⟨k, hk⟩)

theorem exec_ldVxK_of_firstKey (x : Reg) {s : State} {k : Nat} (h : s.firstKey = some k) :
    exec (.ldVxK x) s = .next { s with V := s.V.set x (BitVec.ofNat 8 k), pc := s.pc + 2 } := by
  simp only [exec, execLdVxK, h, State.setV, State.advance]

theorem exec_ldVxK_of_no_key (x : Reg) {s : State} (h : ∀ k : Fin 16, s.key[k] = false) :
    exec (.ldVxK x) s = .next s := by
  simp only [exec, execLdVxK, firstKey_of_no_key h]

/-- Settles O28: the scan finds the lowest pressed key, or none, and the key wait has an answer for each. -/
theorem keyWaitTakesTheLowestPressedKey : Obligations.KeyWaitTakesTheLowestPressedKey :=
  fun x _ => ⟨fun _ hk hbelow => exec_ldVxK_of_firstKey x (firstKey_of_lowest hk hbelow), exec_ldVxK_of_no_key x⟩

/-! ### The key wait, any number of steps -/

/-- A waiting step is the tick alone. -/
theorem step_keyWait {s : State} {w : Word} {x : Reg} (hf : s.fault = none) (hw : fetchWord s = some w)
    (hdecode : decodeWord w = .ldVxK x) (hkey : ∀ j : Fin 16, s.key[j] = false) : step s = .next s.tick :=
  step_of_completed hf hw (hdecode ▸ exec_ldVxK_of_no_key x hkey) hf

theorem core_run_succ {s t : State} (k : Nat) (h : step s = .next t) :
    Host.Core.run core (k + 1) s = Host.Core.run core k t := by
  simp only [Host.Core.run, core, h]

theorem timer_tick_then (t : Byte) (k : Nat) :
    BitVec.ofNat 8 ((countDown t).toNat - k) = BitVec.ofNat 8 (t.toNat - (k + 1)) := by
  rw [countDown_toNat, Nat.sub_sub, Nat.add_comm]

/-- Settles O15, by induction on the steps: the tick writes nothing that the next step's fetch, decode or key scan reads,
so the wait goes on from the ticked state. -/
theorem keyWaitRunsForeverWhileNoKeyIsPressed : Obligations.KeyWaitRunsForeverWhileNoKeyIsPressed := by
  intro k
  induction k with
  | zero =>
    intro s w x _ _ _ _
    simp [Host.Core.run]
  | succ k ih =>
    intro s w x hf hw hdecode hkey
    rw [core_run_succ k (step_keyWait hf hw hdecode hkey), ih s.tick w x hf hw hdecode hkey, tick_dt, tick_st,
      timer_tick_then, timer_tick_then]
    rfl

end Sys2Proof.Machine
end

section
/-! PROOFS. The index register and memory transfers (45_index_memory.md R191 to R198): the writers of I, the first address
that fails a transfer's check, and what a store and a load in range leave in memory and registers. -/

namespace Sys2Proof.Machine

/-! ### The writers of I -/

theorem word_add_byte16_eq (w : Word) (b : Byte) :
    w + byte16 b = BitVec.ofNat 16 ((w.toNat + b.toNat) % 65536) := by
  have hb : (byte16 b).toNat = b.toNat := BitVec.toNat_setWidth_of_le (by decide)
  refine BitVec.eq_of_toNat_eq ?_
  rw [BitVec.toNat_add, hb, BitVec.toNat_ofNat, Nat.mod_mod]

theorem exec_setI {i : Instr} {s : State} {w u : Word} (hcheck : instrFailure i s = none)
    (heffect : instrEffect i s = ({ s with I := w } : State).advance 2) (hw : w = u) :
    exec i s = .next { s with I := u, pc := s.pc + 2 } := by
  rw [exec_of_check hcheck, heffect, hw]
  rfl

/-- Settles O30: none of the three has a check, and each sets I to its sum or product as a number. -/
theorem indexRegisterWrites : Obligations.IndexRegisterWrites :=
  fun nnn _ _ => ⟨exec_setI rfl rfl (addr16_eq nnn), exec_setI rfl rfl rfl,
    exec_setI rfl rfl (word_add_byte16_eq _ _)⟩

/-! ### The first address that fails -/

theorem firstFailure_of_first {check : Nat → Option Raise} {base n k : Nat} {f : Raise} (hk : k < n)
    (hfail : check (base + k) = some f) (hbefore : ∀ j < k, check (base + j) = none) :
    firstFailure check base n = some f := by
  induction n with
  | zero => exact absurd hk (Nat.not_lt_zero k)
  | succ n ih =>
    rw [firstFailure_succ]
    obtain hlt | rfl := Nat.lt_succ_iff_lt_or_eq.mp hk
    · rw [ih hlt, Option.some_or]
    · rw [firstFailure_none.mpr hbefore, Option.none_or, hfail]

theorem readCheck_of_above {a : Nat} (h : a > 0xFFF) : readCheck a = some (.dataRange, a) := if_pos h

theorem writeCheck_of_above {a : Nat} (h : a > 0xFFF) : writeCheck a = some (.dataRange, a) := if_pos h

theorem writeCheck_of_below {a : Nat} (h : a < 0x200) : writeCheck a = some (.protectedWrite, a) := by
  rw [writeCheck, if_neg (by omega), if_pos h]

/-- R55 for either check: a transfer that passes up to 0xFFF and ends above it fails at the first address above 0xFFF. -/
theorem firstFailure_of_end_above {check : Nat → Option Raise} {base n : Nat} (hend : base + n > 0xFFF)
    (hpass : ∀ a, base ≤ a → a ≤ 0xFFF → check a = none) (habove : ∀ a > 0xFFF, check a = some (.dataRange, a)) :
    firstFailure check base (n + 1) = some (.dataRange, max base 0x1000) := by
  obtain ⟨k, hk⟩ := Nat.exists_eq_add_of_le (Nat.le_max_left base 0x1000)
  rw [hk]
  exact firstFailure_of_first (by omega) (habove _ (by omega)) fun j hj => hpass _ (by omega) (by omega)

/-! ### Transfers that fault -/

section Faults
variable {i : Instr} {s : State} {n : Nat}

theorem exec_store_of_protected (hcheck : instrFailure i s = firstFailure writeCheck (s.dataAddr 0) (n + 1))
    (h : s.I.toNat < 0x200) : exec i s = .next { s with fault := some ⟨.protectedWrite, s.I.toNat, s.pc⟩ } :=
  exec_of_failure (hcheck.trans
    (firstFailure_of_first n.succ_pos (writeCheck_of_below h) fun j hj => absurd hj (Nat.not_lt_zero j)))

/-- A store of at most 16 bytes that ends above 0xFFF starts at 0x200 or above, so it first fails at its end. -/
theorem exec_store_of_end_above (hcheck : instrFailure i s = firstFailure writeCheck (s.dataAddr 0) (n + 1))
    (hn : n ≤ 15) (h : s.I.toNat + n > 0xFFF) :
    exec i s = .next { s with fault := some ⟨.dataRange, max s.I.toNat 0x1000, s.pc⟩ } := by
  have hlo : 0x200 ≤ s.I.toNat := by omega
  exact exec_of_failure (hcheck.trans (firstFailure_of_end_above h
    (fun _ hstart ha => writeCheck_none.mpr ⟨hlo.trans hstart, ha⟩) fun _ => writeCheck_of_above))

theorem exec_load_of_end_above (hcheck : instrFailure i s = firstFailure readCheck (s.dataAddr 0) (n + 1))
    (h : s.I.toNat + n > 0xFFF) :
    exec i s = .next { s with fault := some ⟨.dataRange, max s.I.toNat 0x1000, s.pc⟩ } :=
  exec_of_failure (hcheck.trans (firstFailure_of_end_above h
    (fun _ _ => readCheck_none.mpr) fun _ => readCheck_of_above))

end Faults

/-! ### Transfers in range -/

theorem read_storeRegs_reg {x r : Reg} (s : State) (h : r ≤ x) :
    (instrEffect (.storeRegs x) s).mem.read (s.I.toNat + r.val) = s.V[r] := by
  have hr : r.val ≤ x.val := h
  simp [read_storeRegs, hr, Nat.mod_eq_of_lt r.isLt]

theorem exec_loadRegs_of_range {x : Reg} {s : State} (h : s.I.toNat + x.val ≤ 0xFFF) :
    exec (.loadRegs x) s = .next (instrEffect (.loadRegs x) s) :=
  exec_of_check (firstFailure_read_none.mpr (.inr (by simp only [State.dataAddr]; omega)))

theorem loadRegs_getElem (x r : Reg) (s : State) :
    (instrEffect (.loadRegs x) s).V[r] = if r ≤ x then s.mem.read (s.I.toNat + r.val) else s.V[r] :=
  v_loadThrough s x r

theorem loadRegs_frame (x : Reg) (s : State) :
    instrEffect (.loadRegs x) s = { s with V := (instrEffect (.loadRegs x) s).V, pc := s.pc + 2 } := by
  simp only [instrEffect, State.advance, State.loadThrough]

/-! ### The transfers -/

/-- Settles O31: in range each byte reads as the digit stored there, or as before; elsewhere the check fails. -/
theorem bcdStoresThreeDigits : Obligations.BcdStoresThreeDigits := by
  refine fun x s => ⟨fun hlo hhi => ⟨_, exec_ldB_of_range hlo hhi, rfl, ?hundreds, ?tens, ?units, fun a ha => ?frame⟩,
    exec_store_of_protected rfl, exec_store_of_end_above rfl (by omega)⟩
  case hundreds => rw [read_ldB, if_pos rfl]
  case tens => rw [read_ldB, if_neg (by omega), if_pos rfl]
  case units => rw [read_ldB, if_neg (by omega), if_neg (by omega), if_pos rfl]
  case frame => rw [read_ldB, if_neg (by omega), if_neg (by omega), if_neg (by omega)]

/-- Settles O32: in range each byte reads as the register stored there, or as before; elsewhere the check fails. -/
theorem blockStoreWritesRegistersThroughX : Obligations.BlockStoreWritesRegistersThroughX := by
  refine fun x s => ⟨fun hlo hhi => ⟨_, exec_storeRegs_of_range hlo hhi, rfl, fun _ => read_storeRegs_reg s,
    fun a ha => ?frame⟩, exec_store_of_protected rfl, exec_store_of_end_above rfl (by omega)⟩
  case frame => rw [read_storeRegs, if_neg (by omega)]

/-- Settles O33: a load has no lower bound on I, only the check of its end. -/
theorem blockLoadReadsRegistersThroughX : Obligations.BlockLoadReadsRegistersThroughX :=
  fun x s => ⟨fun h => ⟨_, exec_loadRegs_of_range h, loadRegs_frame x s, fun r => loadRegs_getElem x r s⟩,
    exec_load_of_end_above rfl⟩

/-- Settles O34: the load reads, in the store's memory and from its I, the addresses that the store wrote. -/
theorem blockLoadRestoresABlockStore : Obligations.BlockLoadRestoresABlockStore := by
  intro x s t u hlo hhi hstore hmem hI
  obtain rfl := Host.Outcome.next.inj ((exec_storeRegs_of_range hlo hhi).symm.trans hstore)
  refine ⟨_, exec_loadRegs_of_range (hI ▸ hhi), fun r hr => ?restored, fun r hr => ?kept⟩
  case restored => rw [loadRegs_getElem, if_pos hr, hmem, hI, read_storeRegs_reg s hr]
  case kept => rw [loadRegs_getElem, if_neg (not_le.mpr hr)]

end Sys2Proof.Machine
end

section
/-! PROOFS. The timers (46_timers.md R211 to R214): the transfers, the tick of their own step, and the count of a timer
over any number of completed steps. -/

namespace Sys2Proof.Machine

/-! ### A completed step is a ticked effect -/

theorem step_of_check {s : State} {w : Word} {i : Instr} (hf : s.fault = none) (hw : fetchWord s = some w)
    (hdecode : decodeWord w = i) (hcheck : instrFailure i s = none) : step s = .next (instrEffect i s).tick := by
  subst hdecode
  exact step_of_completed hf hw (exec_of_check hcheck) ((instrEffect_fault _ s).trans hf)

/-- The converse of `step_of_check`: a step that leaves no fault has passed the fetch and the instruction's check. -/
theorem tick_instrEffect_of_step {s t : State} (hstep : step s = .next t) (ht : t.fault = none) :
    ∃ w, fetchWord s = some w ∧ t = (instrEffect (decodeWord w) s).tick := by
  obtain ⟨hf, hfetch | ⟨w, hw, -⟩⟩ := step_next hstep
  case inl =>
    obtain ⟨-, rfl⟩ := hfetch
    cases ht
  case inr =>
    refine ⟨w, hw, ?_⟩
    cases hcheck : instrFailure (decodeWord w) s with
    | none => exact Host.Outcome.next.inj (hstep.symm.trans (step_of_check hf hw rfl hcheck))
    | some f =>
      have hraised := step_of_raised hf hw (exec_of_failure hcheck) (Option.some_ne_none _)
      obtain rfl := Host.Outcome.next.inj (hraised.symm.trans hstep)
      cases ht

/-- Settles O29: none of the three has a check, and the tick follows the effect. -/
theorem timerTransfersComeBeforeTheTick : Obligations.TimerTransfersComeBeforeTheTick := by
  refine fun x s => ⟨exec_of_check rfl, exec_of_check rfl, exec_of_check rfl,
    fun w hf hw => ⟨fun hdecode => ?read, fun hdecode => ?setDelay, fun hdecode => ?setSound⟩⟩
  all_goals
    rw [step_of_check hf hw hdecode rfl, tick_eq]
    rfl

/-! ### The count of a timer -/

theorem countDown_eq_ofNat (t : Byte) : countDown t = BitVec.ofNat 8 (t.toNat - 1) := by
  rw [← countDown_toNat, BitVec.ofNat_toNat, BitVec.setWidth_eq]

theorem tick_eq_ofNat (s : State) :
    s.tick = { s with dt := BitVec.ofNat 8 (s.dt.toNat - 1), st := BitVec.ofNat 8 (s.st.toNat - 1) } := by
  rw [State.tick, countDown_eq_ofNat, countDown_eq_ofNat]

theorem instrEffect_dt_of_ne {i : Instr} {s : State} (h : ∀ x, i ≠ .ldDt x) : (instrEffect i s).dt = s.dt :=
  not_not.mp fun hwrites => (writer_of_instrEffect_dt hwrites).elim h

theorem dt_of_step {s t : State} (hstep : step s = .next t) (ht : t.fault = none)
    (hkept : ∀ w x, fetchWord s = some w → decodeWord w ≠ .ldDt x) : t.dt = countDown s.dt := by
  obtain ⟨w, hw, rfl⟩ := tick_instrEffect_of_step hstep ht
  exact congrArg countDown (instrEffect_dt_of_ne fun x => hkept w x hw)

theorem instrEffect_st_of_ne {i : Instr} {s : State} (h : ∀ x, i ≠ .ldSt x) : (instrEffect i s).st = s.st :=
  not_not.mp fun hwrites => (writer_of_instrEffect_st hwrites).elim h

theorem st_of_step {s t : State} (hstep : step s = .next t) (ht : t.fault = none)
    (hkept : ∀ w x, fetchWord s = some w → decodeWord w ≠ .ldSt x) : t.st = countDown s.st := by
  obtain ⟨w, hw, rfl⟩ := tick_instrEffect_of_step hstep ht
  exact congrArg countDown (instrEffect_st_of_ne fun x => hkept w x hw)

/-- R214 for either timer, as the bytes that it holds along a path. -/
theorem toNat_of_countDown_path {timer : Nat → Byte} {k : Nat} (h : ∀ j < k, timer (j + 1) = countDown (timer j)) :
    (timer k).toNat = (timer 0).toNat - k := by
  induction k with
  | zero => rfl
  | succ k ih => rw [h k k.lt_succ_self, countDown_toNat, ih fun j hj => h j (Nat.lt_succ_of_lt hj), Nat.sub_sub]

/-- Settles O14: a set timer is ticked as the effect left it, and a timer that is not set counts down along the path. -/
theorem timersCountDownOncePerStep : Obligations.TimersCountDownOncePerStep := by
  refine ⟨fun s w x hf hw hdecode => ?setDelay, fun s w x hf hw hdecode => ?setSound, fun k σ hpath => ?delay,
    fun k σ hpath => ?sound⟩
  case setDelay | setSound =>
    rw [step_of_check hf hw hdecode rfl, tick_eq_ofNat]
    rfl
  case delay =>
    refine toNat_of_countDown_path (timer := fun j => (σ j).dt) fun j hj => ?_
    obtain ⟨hstep, hfault, hkept⟩ := hpath j hj
    exact dt_of_step hstep hfault hkept
  case sound =>
    refine toNat_of_countDown_path (timer := fun j => (σ j).st) fun j hj => ?_
    obtain ⟨hstep, hfault, hkept⟩ := hpath j hj
    exact st_of_step hstep hfault hkept

end Sys2Proof.Machine
end

section
/-! PROOFS. The display instructions (47_display.md R221 to R226): the clear screen, which pixels a draw inverts and when
it reports a collision, and a second draw of the same sprite over the first. -/

namespace Sys2Proof.Machine

/-! ### The clear screen -/

/-- Settles O36: 00E0 has no check, and what it writes does not depend on the old framebuffer. -/
theorem clearScreenBlanksTheFramebuffer : Obligations.ClearScreenBlanksTheFramebuffer :=
  fun _ => exec_of_check rfl

/-! ### The canvas of a draw -/

section Draw
variable {x y : Reg} {n : Fin 16} {s : State}

/-- What Dxyn draws: the framebuffer after its rows, and whether they hit a set pixel. -/
def State.drawn (s : State) (x y : Reg) (n : Fin 16) : Canvas :=
  drawRows ((s.v x).toNat % Config.fbWidth) ((s.v y).toNat % Config.fbHeight)
    (s.mem.readBytes (s.dataAddr 0) n.val) (s.fb, false)

/-- A set bit of the sprite that Dxyn draws falls on pixel `k`, both axes wrapped (R222). -/
def State.drawCovers (s : State) (x y : Reg) (n : Fin 16) (k : Fin Config.fbSize) : Prop :=
  ∃ r < n.val, ∃ c < 8, (s.mem.read (s.I.toNat + r)).getLsbD (7 - c) = true ∧
    k.val = ((s.V[y]).toNat % 32 + r) % 32 * 64 + ((s.V[x]).toNat % 64 + c) % 64

theorem spriteCovers_iff_drawCovers (k : Fin Config.fbSize) :
    SpriteCovers ((s.v x).toNat % Config.fbWidth) ((s.v y).toNat % Config.fbHeight)
      (s.mem.readBytes (s.dataAddr 0) n.val) k ↔ s.drawCovers x y n k := by
  simp only [SpriteCovers, RowCovers, State.drawCovers, Memory.length_readBytes, Memory.getElem_readBytes,
    exists_prop, Fin.ext_iff]
  rfl

/-- R223, R224: a sprite of at most 15 rows covers no pixel twice, so each covered one is inverted once. -/
theorem drawn_spec (s : State) (x y : Reg) (n : Fin 16) :
    (∀ k, s.drawCovers x y n k → (s.drawn x y n).1[k] = !s.fb[k]) ∧
    (∀ k, ¬ s.drawCovers x y n k → (s.drawn x y n).1[k] = s.fb[k]) ∧
    ((s.drawn x y n).2 = true ↔ ∃ k, s.drawCovers x y n k ∧ s.fb[k] = true) := by
  have h := drawRows_spec ((s.v x).toNat % Config.fbWidth) ((s.v y).toNat % Config.fbHeight)
    (s.mem.readBytes (s.dataAddr 0) n.val) (s.fb, false) (by rw [Memory.length_readBytes]; omega)
  simp only [spriteCovers_iff_drawCovers, Bool.false_eq_true, false_or] at h
  exact h

theorem drawn_no_hit_iff : (s.drawn x y n).2 = false ↔ ∀ k, s.drawCovers x y n k → s.fb[k] = false := by
  obtain ⟨-, -, hhit⟩ := drawn_spec s x y n
  rw [← Bool.not_eq_true, hhit]
  simp only [not_exists, not_and, Bool.not_eq_true]

/-! ### The instruction -/

theorem draw_eq_of_hit {hit : Bool} (h : (s.drawn x y n).2 = hit) :
    s.draw x y n.val = { s with
      V := s.V.set 15 (flagByte hit), fb := (s.drawn x y n).1, redraw := true, pc := s.pc + 2 } :=
  h ▸ rfl

theorem draw_fb (s : State) (x y : Reg) (n : Fin 16) : (s.draw x y n.val).fb = (s.drawn x y n).1 := rfl

theorem draw_vf_eq_one_iff : (s.draw x y n.val).V[15] = 1 ↔ (s.drawn x y n).2 = true := by
  cases h : (s.drawn x y n).2 <;> simp [draw_eq_of_hit h, flagByte]

theorem exec_drw_of_range (h : n.val = 0 ∨ s.I.toNat + n.val ≤ 0x1000) :
    exec (.drw x y n) s = .next (s.draw x y n.val) :=
  exec_of_check (firstFailure_read_none.mpr h)

theorem exec_drw_of_end_above (hrows : n.val ≠ 0) (h : s.I.toNat + n.val > 0x1000) :
    exec (.drw x y n) s = .next { s with fault := some ⟨.dataRange, max s.I.toNat 0x1000, s.pc⟩ } := by
  have hcheck : instrFailure (.drw x y n) s = firstFailure readCheck (s.dataAddr 0) (n.val - 1 + 1) := by
    rw [Nat.sub_one_add_one hrows]; rfl
  exact exec_load_of_end_above hcheck (by omega)

/-! ### A second draw -/

theorem drawCovers_congr {u : State} {x' y' : Reg} (hmem : u.mem = s.mem) (hI : u.I = s.I)
    (hx : (u.V[x']).toNat % 64 = (s.V[x]).toNat % 64) (hy : (u.V[y']).toNat % 32 = (s.V[y]).toNat % 32)
    (k : Fin Config.fbSize) : u.drawCovers x' y' n k ↔ s.drawCovers x y n k := by
  simp only [State.drawCovers, hmem, hI, hx, hy]

end Draw

/-- Settles O37: in range the draw's canvas gives the pixels and VF, for every x and y; else the check fails. -/
theorem drawXorsTheSpriteAndReportsCollision : Obligations.DrawXorsTheSpriteAndReportsCollision := by
  intro x y n s
  obtain ⟨hin, hout, hhit⟩ := drawn_spec s x y n
  exact ⟨fun hrange => ⟨_, exec_drw_of_range hrange, hin, hout, fun h => draw_eq_of_hit (hhit.mpr h),
    fun h => draw_eq_of_hit (drawn_no_hit_iff.mpr h)⟩, exec_drw_of_end_above⟩

/-- Settles O38: both draws cover the same pixels, so each is inverted twice; the second hits a set pixel where the
first turned one on. -/
theorem drawingTwiceErasesTheSprite : Obligations.DrawingTwiceErasesTheSprite := by
  intro x y x' y' n s t u hrange hdraw hfb hmem hI hx hy
  obtain rfl := Host.Outcome.next.inj ((exec_drw_of_range hrange).symm.trans hdraw)
  obtain ⟨sin, sout, -⟩ := drawn_spec s x y n
  obtain ⟨uin, uout, uhit⟩ := drawn_spec u x' y' n
  simp only [drawCovers_congr hmem hI hx hy, hfb, draw_fb] at uin uout uhit
  have restored (k : Fin Config.fbSize) : (u.drawn x' y' n).1[k] = s.fb[k] := by
    by_cases hk : s.drawCovers x y n k
    · rw [uin k hk, sin k hk, Bool.not_not]
    · rw [uout k hk, sout k hk]
  refine ⟨_, exec_drw_of_range (hI ▸ hrange), Vector.ext fun i hi => restored ⟨i, hi⟩, ?flag⟩
  case flag =>
    rw [draw_vf_eq_one_iff, uhit, draw_fb]
    refine exists_congr fun k => ?_
    by_cases hk : s.drawCovers x y n k
    · simp [hk, sin k hk]
    · simp [hk, sout k hk]

end Sys2Proof.Machine
end

section
/-! PROOFS. The faults of a step (60_exceptions.md R240, R241): the first check that fails, of the fetch or of the
instruction, gives the fault's code and info, and the state is otherwise as before the step. -/

namespace Sys2Proof.Machine

/-! ### The failed check of a step -/

/-- The fault that a step raises, if any: the fetch's, or that of the fetched instruction's check. -/
def stepFailure (s : State) : Option Raise :=
  (fetchWord s).elim (some (fetchRaise s)) fun w => instrFailure (decodeWord w) s

theorem stepFailure_of_range {s : State} (hpc : s.pc.toNat ≤ 0xFFE) :
    stepFailure s = instrFailure (decodeWord (s.mem.read s.pc.toNat ++ s.mem.read (s.pc.toNat + 1))) s := by
  rw [stepFailure, fetchWord_some hpc, Option.elim_some]

theorem stepFailure_of_fetchRange {s : State} (hpc : 0xFFE < s.pc.toNat) : stepFailure s = some (fetchRaise s) := by
  rw [stepFailure, fetchWord_none.mpr hpc, Option.elim_none]

/-- Everything a step can do: enter the fault of its failed check, or complete without one. -/
theorem step_next_stepFailure {s t : State} (h : step s = .next t) :
    (∃ f, stepFailure s = some f ∧ t = raise f s) ∨ (stepFailure s = none ∧ t.fault = none) := by
  obtain ⟨hf, ⟨hw, rfl⟩ | ⟨w, hw, -⟩⟩ := step_next h
  · exact .inl ⟨_, stepFailure_of_fetchRange (fetchWord_none.mp hw), rfl⟩
  have hstep : stepFailure s = instrFailure (decodeWord w) s := by rw [stepFailure, hw, Option.elim_some]
  rw [hstep]
  cases hcheck : instrFailure (decodeWord w) s with
  | some f =>
    have hraised := step_of_raised hf hw (exec_of_failure hcheck) (Option.some_ne_none _)
    exact .inl ⟨f, rfl, Host.Outcome.next.inj (h.symm.trans hraised)⟩
  | none =>
    obtain rfl := Host.Outcome.next.inj ((step_of_check hf hw rfl hcheck).symm.trans h)
    exact .inr ⟨rfl, (instrEffect_fault _ s).trans hf⟩

/-- Settles O12: a state with a fault recorded is the fault entry of the step's failed check. -/
theorem faultEntryIsPrecise : Obligations.FaultEntryIsPrecise := by
  intro s t r hstep hr
  obtain ⟨f, -, rfl⟩ | ⟨-, hnone⟩ := step_next_stepFailure hstep
  · obtain rfl := Option.some.inj hr
    rfl
  · cases hnone.symm.trans hr

theorem step_fault_iff {s t : State} (hstep : step s = .next t) (c : FaultCode) (v : Nat) :
    t.fault = some ⟨c, v, s.pc⟩ ↔ stepFailure s = some (c, v) := by
  obtain ⟨f, hf, rfl⟩ | ⟨hcheck, hnone⟩ := step_next_stepFailure hstep
  · simp [hf, Prod.ext_iff]
  · simp [hcheck, hnone]

/-! ### When each check fails -/

section Checks
variable {c : FaultCode} {v : Nat}

theorem firstFailure_read_some_iff {base n : Nat} :
    firstFailure readCheck base n = some (c, v) ↔
      n ≠ 0 ∧ base + n > 0x1000 ∧ c = .dataRange ∧ v = max base 0x1000 := by
  by_cases hpass : n = 0 ∨ base + n ≤ 0x1000
  · rw [firstFailure_read_none.mpr hpass]
    simp only [reduceCtorEq, false_iff]
    omega
  · obtain ⟨m, rfl⟩ := Nat.exists_eq_succ_of_ne_zero (not_or.mp hpass).1
    rw [firstFailure_of_end_above (by omega) (fun _ _ => readCheck_none.mpr) fun _ => readCheck_of_above]
    have hend : base + (m + 1) > 0x1000 := by omega
    simp [hend, eq_comm]

theorem firstFailure_read_succ_some_iff {base n : Nat} :
    firstFailure readCheck base (n + 1) = some (c, v) ↔
      base + n > 0xFFF ∧ c = .dataRange ∧ v = max base 0x1000 := by
  have hend : base + (n + 1) > 0x1000 ↔ base + n > 0xFFF := by omega
  rw [firstFailure_read_some_iff, hend, and_iff_right n.succ_ne_zero]

/-- A store of at most 16 bytes cannot both start below 0x200 and end above 0xFFF, so the order of its two checks does
not show (R243). -/
theorem firstFailure_write_some_iff {base n : Nat} (hn : n ≤ 15) :
    firstFailure writeCheck base (n + 1) = some (c, v) ↔
      (base + n > 0xFFF ∧ c = .dataRange ∧ v = max base 0x1000) ∨
      (base < 0x200 ∧ c = .protectedWrite ∧ v = base) := by
  by_cases hlow : base < 0x200
  · have hend : ¬ base + n > 0xFFF := by omega
    rw [firstFailure_of_first n.succ_pos (writeCheck_of_below hlow) fun j hj => absurd hj (Nat.not_lt_zero j)]
    simp [hlow, hend, eq_comm]
  by_cases hend : base + n > 0xFFF
  · rw [firstFailure_of_end_above hend (fun _ hstart ha => writeCheck_none.mpr ⟨by omega, ha⟩)
      fun _ => writeCheck_of_above]
    simp [hlow, hend, eq_comm]
  · rw [firstFailure_write_none.mpr (.inr (by omega))]
    simp [hlow, hend]

theorem keyCheck_some_iff {k : Byte} :
    keyCheck k = some (c, v) ↔ k.toNat > 15 ∧ c = .keyRange ∧ v = k.toNat := by
  rw [keyCheck, Option.ite_none_right_eq_some]
  simp [eq_comm]

/-- The stack's two checks: the fault's info is the sp that fails. -/
theorem spCheck_some_iff {sp limit : Nat} {code : FaultCode} :
    (if sp = limit then some (code, sp) else none : Option Raise) = some (c, v) ↔
      sp = limit ∧ c = code ∧ v = limit := by
  rw [Option.ite_none_right_eq_some]
  refine and_congr_right fun hsp => ?_
  simp [hsp, eq_comm]

end Checks

/-- Settles O13: the fetch's check comes first, and of the instructions only the listed ones have a check. -/
theorem faultsAreRaisedExactlyWhenListed : Obligations.FaultsAreRaisedExactlyWhenListed := by
  refine ⟨⟨rfl, rfl, rfl, rfl, rfl, rfl⟩, fun s t c v hstep => ?_⟩
  rw [step_fault_iff hstep]
  by_cases hpc : 0xFFE < s.pc.toNat
  · rw [stepFailure_of_fetchRange hpc]
    simp [hpc, not_le.mpr hpc, fetchRaise, eq_comm]
  rw [stepFailure_of_range (not_lt.mp hpc)]
  simp only [hpc, not_lt.mp hpc, false_and, false_or, true_and]
  cases decodeWord (s.mem.read s.pc.toNat ++ s.mem.read (s.pc.toNat + 1)) with
  | drw => exact firstFailure_read_some_iff
  | loadRegs => exact firstFailure_read_succ_some_iff
  | storeRegs | ldB => exact firstFailure_write_some_iff (by omega)
  | call | ret => exact spCheck_some_iff
  | skp | sknp => exact keyCheck_some_iff
  | _ => simp [instrFailure]

end Sys2Proof.Machine
end

section
/-! PROOFS. The host's operations (60_exceptions.md R248 to R257, R263): what each returns and changes, and that each
keeps the invariant. -/

namespace Sys2Proof.Machine

/-- Settles O47: Step keeps the invariant as every step does, LoadRom writes inside 0x200 to 0xFFF, and no other
operation writes memory, pc or the stack. -/
theorem hostOperationsKeepTheInvariant : Obligations.HostOperationsKeepTheInvariant :=
  fun op _ => transact_inv op

/-! ### LoadRom -/

theorem loadRom_of_oversize {bytes : List Byte} (s : State) (h : bytes.length > 3584) :
    s.loadRom bytes = (.oversizeRom, s) := if_pos h

theorem loadRom_of_fits {bytes : List Byte} (s : State) (h : bytes.length ≤ 3584) :
    s.loadRom bytes = (.ok, { s with mem := (s.loadRom bytes).2.mem }) := by
  rw [State.loadRom, if_neg (not_lt.mpr h)]

/-- Settles O49: the image is a block write at 0x200, read back byte by byte. -/
theorem loadRomCopiesOrFailsUnchanged : Obligations.LoadRomCopiesOrFailsUnchanged := by
  refine fun bytes s => ⟨fun hover => ?oversize, fun hfits => ⟨(s.loadRom bytes).2, ?reply, ?frame,
    fun k hk => ?copied, fun a ha => ?kept⟩⟩
  case oversize => rw [transact, loadRom_of_oversize s hover]
  case reply => rw [transact, loadRom_of_fits s hfits]
  case frame => exact congrArg Prod.snd (loadRom_of_fits s hfits)
  case copied =>
    rw [read_loadRom s hfits, dif_pos ⟨Nat.le_add_right _ k, Nat.add_lt_add_left hk _⟩]
    simp only [Nat.add_sub_cancel_left]
  case kept => rw [read_loadRom s hfits, dif_neg (by omega)]

/-! ### SetKey -/

theorem setKey_of_key (s : State) (k : Fin 16) (pressed : Bool) :
    s.setKey k.val pressed = { s with key := s.key.set k pressed } := by
  rw [State.setKey, dif_pos (by omega)]
  rfl

theorem setKey_of_outside (s : State) {index : Int} (pressed : Bool) (h : index < 0 ∨ 15 < index) :
    s.setKey index pressed = s :=
  dif_neg (by omega)

/-- Settles O50: an index is the number of a key, or it is outside the keypad. -/
theorem setKeyIgnoresIndicesOutsideTheKeypad : Obligations.SetKeyIgnoresIndicesOutsideTheKeypad := by
  refine fun index pressed s => ⟨fun k hk => ?key, fun houtside => ?outside⟩
  case key => rw [hk, transact, setKey_of_key]
  case outside => rw [transact, setKey_of_outside s pressed houtside]

/-! ### The reads -/

theorem faultNumber_of_none {s : State} (h : s.fault = none) : s.faultNumber = 0 := by
  rw [State.faultNumber, h]

theorem faultNumber_of_some {s : State} {r : FaultRecord} (h : s.fault = some r) : s.faultNumber = r.code.number := by
  rw [State.faultNumber, h]

/-- The numbers of R240. -/
theorem number_mem_table (code : FaultCode) :
    (code, code.number) ∈ [(FaultCode.fetchRange, 1), (.dataRange, 2), (.protectedWrite, 3),
      (.stackOverflow, 4), (.stackUnderflow, 5), (.keyRange, 6)] := by
  cases code <;> decide

/-- Settles O51: each read returns its component as it stands. That the fault read pairs the number and the record is
the model's choice (log entry 10). -/
theorem hostReadsReturnTheirComponent : Obligations.HostReadsReturnTheirComponent := by
  refine fun s => ⟨rfl, rfl, rfl, fun hnone => ?none, fun code info pc hsome => ⟨code.number, ?some,
    number_mem_table code⟩⟩
  case none => rw [transact, faultNumber_of_none hnone, hnone]
  case some => rw [transact, faultNumber_of_some hsome, hsome]

end Sys2Proof.Machine
end

section
/-! PROOFS. Stepping with no program placed (70_reset_and_hazards.md R284): the fetch walks the zeros from 0x200 to the
end of memory and then fails. -/

namespace Sys2Proof.Machine

theorem core_run_snoc {s t u : State} {k : Nat} (hrun : Host.Core.run core k s = .next t) (hstep : step t = .next u) :
    Host.Core.run core (k + 1) s = .next u := by
  induction k generalizing s with
  | zero =>
    obtain rfl := Host.Outcome.next.inj hrun
    exact core_run_succ 0 hstep
  | succ k ih =>
    cases hs : step s with
    | next v =>
      rw [core_run_succ _ hs] at hrun ⊢
      exact ih hrun
    | fault | refused => simp [Host.Core.run, core, hs] at hrun

/-- The state after `k` steps from reset with no program placed: `k` events of the unknown word 0x0000. -/
def unloadedState (k : Nat) : State :=
  { State.reset with
    pc := BitVec.ofNat 16 (0x200 + 2 * k)
    diag := (List.range k).map fun j => ⟨BitVec.ofNat 16 (0x200 + 2 * j), 0x0000⟩ }

theorem toNat_unloadedState_pc {k : Nat} (h : k ≤ 1792) : (unloadedState k).pc.toNat = 0x200 + 2 * k :=
  Nat.mod_eq_of_lt (by omega)

theorem fetchWord_unloadedState {k : Nat} (h : k < 1792) : fetchWord (unloadedState k) = some 0x0000 := by
  have hpc := toNat_unloadedState_pc h.le
  have hzero (a : Nat) (ha : 0x050 ≤ a) : (unloadedState k).mem.read a = 0 := unlisted_above_font ha
  rw [fetchWord_some (by omega), hzero _ (by omega), hzero _ (by omega)]
  rfl

theorem unloadedState_succ (k : Nat) :
    unloadedState (k + 1) = { unloadedState k with
      diag := (unloadedState k).diag ++ [⟨(unloadedState k).pc, 0x0000⟩], pc := (unloadedState k).pc + 2 } := by
  simp [unloadedState, List.range_succ, Nat.mul_succ, ← Nat.add_assoc, BitVec.ofNat_add]

theorem step_unloadedState {k : Nat} (h : k < 1792) : step (unloadedState k) = .next (unloadedState (k + 1)) := by
  obtain ⟨-, hstep⟩ := unknownWordEmitsOneDiagnosticAndAdvances 0x0000 (unloadedState k)
  rw [hstep rfl (fetchWord_unloadedState h) rfl, unloadedState_succ]
  rfl

theorem run_unloadedState {k : Nat} (h : k ≤ 1792) : Host.Core.run core k State.reset = .next (unloadedState k) := by
  induction k with
  | zero => rfl
  | succ k ih => exact core_run_snoc (ih (Nat.le_of_succ_le h)) (step_unloadedState h)

/-- Stated for every `k`, so that the list of events is never evaluated. -/
theorem raise_unloadedState (f : Raise) (k : Nat) :
    raise f (unloadedState k) = { State.reset with
      pc := (unloadedState k).pc, diag := (List.range k).map fun j => ⟨BitVec.ofNat 16 (0x200 + 2 * j), 0x0000⟩,
      fault := some ⟨f.1, f.2, (unloadedState k).pc⟩ } := rfl

/-- Settles O16, by induction on the steps up to the end of memory, where the fetch fails. That the events are kept in
`diag` is the model's choice (log entry 4). -/
theorem steppingWithoutARomEndsInFetchRange : Obligations.SteppingWithoutARomEndsInFetchRange := by
  have hrun := run_unloadedState (le_refl 1792)
  have hpc : (unloadedState 1792).pc.toNat = 0x1000 := toNat_unloadedState_pc (le_refl 1792)
  have hstep := step_fetchRange (s := unloadedState 1792) rfl (by omega)
  rw [fetchRaise, hpc, raise_unloadedState] at hstep
  exact ⟨hrun, core_run_snoc hrun hstep⟩

end Sys2Proof.Machine
end
